-- ==== Sys2Proof/Word.lean ====
section
/-! DEFINITION. The widths of the datapath (00_scope.md R6, R10; 40_block_ops.md R79). Every value is unsigned. -/

namespace Sys2Proof

/-- A byte: 8 bits, unsigned (R10). -/
abbrev Byte := BitVec 8

/-- A group: 5 bits, an index into ALPHABET (R10). -/
abbrev Group := BitVec 5

/-- A raw chunk as one 40-bit value, its first byte the most significant (R10, R74). -/
abbrev Chunk := BitVec 40

/-- The 64-bit operand and result registers DIN and DOUT, read and written only whole (R43). -/
abbrev Word := BitVec 64

/-- A lane number, 0 to 7; lane 0 carries the first symbol (R12, R70). -/
abbrev Lane := Fin 8

end Sys2Proof
end

