-- ==== Sys2Proof/Machine/Tables.lean ====
section
/-! DEFINITION. The two ROMs, ALPHABET and RLUT (10_state.md R30, R31; 30_encoding.md R62, R63), and MAP and RMAP, which
read them (40_block_ops.md R72, R73). -/

namespace Sys2Proof.Machine

/-- ALPHABET[0..31]: the ASCII codes of `ABCDEFGHIJKLMNOPQRSTUVWXYZ123456` (R62). -/
def alphabet : Vector Byte 32 :=
  #v[0x41, 0x42, 0x43, 0x44, 0x45, 0x46, 0x47, 0x48, 0x49, 0x4A, 0x4B, 0x4C, 0x4D, 0x4E, 0x4F, 0x50,
     0x51, 0x52, 0x53, 0x54, 0x55, 0x56, 0x57, 0x58, 0x59, 0x5A, 0x31, 0x32, 0x33, 0x34, 0x35, 0x36]

/-- One entry of RLUT: `{valid[1], idx[4:0]}` (R31). -/
structure RlutEntry where
  valid : Bool
  idx : Group
  deriving DecidableEq, Repr

/-- RLUT[0..255], by the three rows of its table (R63). -/
def rlut (c : Byte) : RlutEntry :=
  if 0x41#8 ≤ c ∧ c ≤ 0x5A#8 then { valid := true, idx := (c - 0x41#8).setWidth 5 }
  else if 0x31#8 ≤ c ∧ c ≤ 0x36#8 then { valid := true, idx := (c - 0x17#8).setWidth 5 }
  else { valid := false, idx := 0 }

/-- MAP(g) = ALPHABET[g], total on 5-bit groups (R72). -/
def map (g : Group) : Byte := alphabet[g.toNat]'g.isLt

/-- RMAP(c) = RLUT[c] (R73). -/
def rmap (c : Byte) : RlutEntry := rlut c

/-- A symbol is a byte that occurs in ALPHABET (R10). -/
abbrev IsSymbol (c : Byte) : Prop := ∃ g : Group, map g = c

end Sys2Proof.Machine
end

