-- ==== Sys2Proof/Machine/Datapath.lean ====
section
/-! DEFINITION. The lane pipeline: EXTRACT, BYTES_TO_40, BYTES_OF_40, GROUPS_TO_40 (40_block_ops.md R70 to R76), and the
two chunk functions both granularities use. -/

namespace Sys2Proof.Machine

/-- EXTRACT(v, k) = v[39-5k : 35-5k] (R71). -/
def extract (v : Chunk) (k : Lane) : Group := v.extractLsb' (35 - 5 * k.val) 5

/-- BYTES_TO_40: the first byte most significant (R74). -/
def bytesTo40 (b0 b1 b2 b3 b4 : Byte) : Chunk := b0 ++ b1 ++ b2 ++ b3 ++ b4

/-- BYTES_OF_40: five bytes, the first the most significant (R75). -/
def bytesOf40 (v : Chunk) : List Byte :=
  [v.extractLsb' 32 8, v.extractLsb' 24 8, v.extractLsb' 16 8, v.extractLsb' 8 8, v.extractLsb' 0 8]

/-- GROUPS_TO_40 by the source's accumulation: acc <- (acc << 5) + g_k for k = 0..7 (R76). -/
def groupsTo40 (g : Lane → Group) : Chunk :=
  (List.finRange 8).foldl (fun acc k => (acc <<< 5) + (g k).setWidth 40) 0

/-- Lane k of the encode direction: MAP(EXTRACT(v, k)) (R70). -/
def encodeLane (v : Chunk) (k : Lane) : Byte := map (extract v k)

/-- One chunk encoded: its eight symbols in order (R70, R85). -/
def encodeChunk (v : Chunk) : List Byte := (List.finRange 8).map (encodeLane v)

/-- One chunk decoded: the packer over the eight lanes' groups, then five bytes (R76, R86). -/
def decodeChunk (c : Lane → Byte) : List Byte := bytesOf40 (groupsTo40 fun k => (rmap (c k)).idx)

end Sys2Proof.Machine
end

