-- ==== Sys2Proof/Machine/Flags.lean ====
section
/-! DEFINITION. The only computed flags: ERR_MASK and ERR_POS of an InvalidCharacter (10_state.md R18, R27, R28;
40_block_ops.md R78; 41_stream_ops.md R86). BUSY, RESP_VALID and STATUS are written in Machine/Ops.lean. -/

namespace Sys2Proof.Machine

/-- The 8-bit m with m[k] = NOT ok_k, bit k = lane k (R78). -/
def laneMask (ok : Lane → Bool) : BitVec 8 :=
  BitVec.ofBool (!ok 7) ++ BitVec.ofBool (!ok 6) ++ BitVec.ofBool (!ok 5) ++ BitVec.ofBool (!ok 4) ++
  BitVec.ofBool (!ok 3) ++ BitVec.ofBool (!ok 2) ++ BitVec.ofBool (!ok 1) ++ BitVec.ofBool (!ok 0)

/-- The lowest index below `n` that fails the check, if one does (R28, R86: min of the failing indices). -/
def firstBad (n : Nat) (ok : Nat → Bool) : Option Nat := (List.range n).find? fun i => !ok i

/-- min of the set bits of a non-zero mask (R78). -/
def lowestLane (m : BitVec 8) : Nat := ((List.range 8).find? fun k => m.getLsbD k).getD 0

end Sys2Proof.Machine
end

