-- ==== Sys2Proof/Config.lean ====
section
/-! DEFINITION. What an implementation fixes (00_scope.md R7) and the values the spec leaves to a draw
(93_implementation_defined.md U7 to U10). -/

namespace Sys2Proof

/-- The open parameters, each a named argument of the model (R7). They stand in State, so that a statement about
every state is a statement about every size. LATENCY is the schedule in State's `pending` (R122, log 3). -/
structure Config where
  /-- MAX_IN_LEN: capacity of IN in bytes. -/
  maxInLen : Nat
  /-- MAX_OUT_LEN: capacity of OUT in bytes. -/
  maxOutLen : Nat
  /-- LEN_W: width in bits of IN_LEN, OUT_LEN and ERR_POS. -/
  lenW : Nat
  /-- PAR: chunks the sequencer processes at once; unobservable. -/
  par : Nat
  deriving DecidableEq, Repr

/-- The constraints of R7 on the parameters. -/
abbrev Config.Ok (c : Config) : Prop :=
  8 * (c.maxInLen / 5) ≤ c.maxOutLen ∧ c.maxOutLen < 2 ^ c.lenW ∧ c.maxInLen < 2 ^ c.lenW ∧ 3 ≤ c.lenW ∧ 1 ≤ c.par

/-- FREE VALUE: the `n`-th draw of `w` bits, for a host read while BUSY = 1 (U9) and for the hidden latches
between commands (U10). -/
opaque Config.freeBits (w n : Nat) : BitVec w

/-- FREE VALUE: what byte `i` of IN holds at power-on (U7). -/
opaque Config.freeIn (i : Nat) : Byte

/-- FREE VALUE: what byte `i` of OUT holds after OUT became unspecified for the `epoch`-th time (U7, U8). -/
opaque Config.freeOut (epoch i : Nat) : Byte

end Sys2Proof
end

