-- ==== Sys2Proof/Machine/Params.lean ====
section
/-! DEFINITION. The parameter values of `State.reset` (00_scope.md R7; log 1). -/

namespace Sys2Proof.Machine

/-- DESIGN CHOICE (log 1): the sizes the reset machine has. The spec gives none; these are large, so that no stream
that could run stops for want of room. Statements are about every `Config`, not this one. -/
def chosenConfig : Config where
  maxInLen := 2 ^ 31
  maxOutLen := 2 ^ 32 - 1
  lenW := 32
  par := 1

end Sys2Proof.Machine
end

