-- ==== Sys2Proof/Syntax.lean ====
section
/-! DEFINITION. The command set: one constructor per row of spec/opcode_table.json (30_encoding.md R58). A row has no
operand fields; the operands are the command registers latched at START (R56). -/

namespace Sys2Proof

/-- The four commands (R58). -/
inductive Instr where
  /-- ENC_BLK, OP = 00: encode one 5-byte chunk from DIN[39:0] to DOUT (R77). -/
  | encBlk
  /-- DEC_BLK, OP = 01: decode one 8-symbol chunk from DIN to DOUT[39:0] (R78). -/
  | decBlk
  /-- ENC_STR, OP = 10: encode the stream IN[0..IN_LEN-1] to OUT (R85). -/
  | encStr
  /-- DEC_STR, OP = 11: decode the stream IN[0..IN_LEN-1] to OUT (R86). -/
  | decStr
  deriving DecidableEq, Repr

end Sys2Proof
end

