-- ==== Sys2Proof/Machine/Script.lean ====
section
/-! DEFINITION. What can happen to the block, as data: host moves (30_encoding.md R68), pseudo-commands (R69), the
core's step and reset (60_exceptions.md R96, 70_reset_and_hazards.md R111). -/

namespace Sys2Proof.Machine

/-- A field the host can read: the response and status fields of R68's `rd F`, and the command registers and START
(R19 to R22, R110). -/
inductive Field where
  | op | din | inLen | start | busy | respValid | status | dout | errMask | errPos | outLen
  deriving DecidableEq, Repr

/-- The count of `rd OUT, i, n`: a number, or the field OUT_LEN as R69 writes it. -/
inductive Count where
  | lit (n : Nat)
  | outLen
  deriving DecidableEq, Repr

/-- The primitive host actions of R68. -/
inductive Action where
  /-- `in i, b0, b1, ...`: write bytes to IN[i], IN[i+1], ... -/
  | writeIn (i : Nat) (bs : List Byte)
  /-- `wr OP, v`. -/
  | wrOp (v : BitVec 2)
  /-- `wr DIN, v`. -/
  | wrDin (v : Word)
  /-- `wr IN_LEN, v`. -/
  | wrInLen (v : Nat)
  /-- `start`: pulse START (R22). -/
  | start
  /-- `wait`: poll until BUSY = 0. -/
  | wait
  /-- `rd F`. -/
  | rd (f : Field)
  /-- `rd OUT, i, n`. -/
  | rdOut (i : Nat) (n : Count)
  deriving DecidableEq, Repr

/-- One event. Two things happen at once only as R96 lists; a START while BUSY = 1 is the host's `start`, a reset at
the instant of anything else is `reset` alone, because it wins. -/
inductive Event where
  /-- The host moves. -/
  | host (a : Action)
  /-- The core completes the command in flight, if there is one (R122). -/
  | core
  /-- Completion and a START pulse in the same instant (R96). -/
  | coreStart
  /-- Reset is asserted (R111). -/
  | reset
  deriving DecidableEq, Repr

/-- What a host read returned. -/
inductive Reply where
  | field (f : Field) (v : Nat)
  | bytes (i : Nat) (bs : List Byte)
  deriving DecidableEq, Repr

/-- The pseudo-commands of R69. -/
inductive Pseudo where
  | encBlk (x : Chunk)
  | decBlk (x : Word)
  | encStr (n : Nat)
  | decStr (n : Nat)
  deriving DecidableEq, Repr

/-- The expansion of a pseudo-command (R69). -/
def Pseudo.expand : Pseudo → List Action
  | .encBlk x => [.wrDin (x.setWidth 64), .wrOp 0b00#2, .start, .wait]
  | .decBlk x => [.wrDin x, .wrOp 0b01#2, .start, .wait]
  | .encStr n => [.wrInLen n, .wrOp 0b10#2, .start, .wait]
  | .decStr n => [.wrInLen n, .wrOp 0b11#2, .start, .wait]

/-- A host script as the events of a schedule in which the core moves only while the host waits. -/
def eventsOf (script : List Action) : List Event := script.map Event.host

end Sys2Proof.Machine
end

