-- ==== Sys2Proof/Machine/State.lean ====
section
/-! DEFINITION. The state of the block (10_state.md R15), as plain data, and the reasons a step can stop. -/

namespace Sys2Proof.Machine

/-- One byte buffer: the bytes something has written, by index. An unlisted byte has no value the model knows
(70_reset_and_hazards.md R112); `State.inByte` and `State.outByte` read it as a free value. -/
abbrev Memory := List Host.Cell

/-- The canonical form: indices strictly rising. No entry equals what an unlisted index holds, because an unlisted
index holds no known value. -/
abbrev Memory.wf (m : Memory) : Prop := (m.map Prod.fst).Pairwise (· < ·)

/-- Every listed index lies below the capacity `n`. -/
abbrev Memory.below (m : Memory) (n : Nat) : Prop := ∀ c ∈ m, c.1 < n

/-- The operand registers of a command, as the host writes them (OP R19, DIN R20, IN_LEN R21) and as the core latches
them (L_OP, L_DIN, L_IN_LEN, R32). -/
structure Command where
  op : BitVec 2
  din : Word
  /-- LEN_W bits, kept below 2^LEN_W (log 2). -/
  inLen : Nat
  deriving DecidableEq, Repr

/-- The response fields (R12, R25 to R29). -/
structure Response where
  status : BitVec 2
  dout : Word
  errMask : BitVec 8
  /-- LEN_W bits, kept below 2^LEN_W (log 2). -/
  errPos : Nat
  /-- LEN_W bits, kept below 2^LEN_W (log 2). -/
  outLen : Nat
  deriving DecidableEq, Repr

/-- The state. START is a strobe and is stored nowhere (R22, log 4); ALPHABET and RLUT are constants (R30, R31). -/
structure State where
  /-- The open parameters (R7); no step writes them. -/
  cfg : Config
  /-- OP, DIN, IN_LEN (R19 to R21). -/
  cmd : Command
  /-- BUSY (R23). -/
  busy : Bool
  /-- RESP_VALID (R24). -/
  respValid : Bool
  /-- STATUS, DOUT, ERR_MASK, ERR_POS, OUT_LEN (R25 to R29). -/
  resp : Response
  /-- L_OP, L_DIN, L_IN_LEN (R32). -/
  latch : Command
  /-- IN (R34). -/
  inBuf : Memory
  /-- OUT (R35). -/
  outBuf : Memory
  /-- Model's own: how many times OUT became unspecified (log 6). -/
  outEpoch : Nat
  /-- Model's own: the next unused draw (logs 7, 8). -/
  draws : Nat
  /-- Model's own: what happens next, oldest first (logs 3, 4, 14). -/
  pending : List Event
  /-- Model's own: what the host's reads returned, oldest first (log 8). -/
  got : List Reply
  deriving DecidableEq, Repr

/-- The machine stops with a fault. -/
inductive Fault where
  /-- An index at or above MAX_IN_LEN: IN has no such byte (R37, R49). Raised by `in` and by the stream commands. Safe. -/
  | inIndexAbsent
  /-- An index at or above MAX_OUT_LEN: OUT has no such byte (R37). Raised by `rd OUT` and by the stream commands. Safe. -/
  | outIndexAbsent
  /-- STATUS = 3 was found: a fault of the model (R93, U11). Raised by every step. Safe. -/
  | reservedStatus
  deriving DecidableEq, Repr

/-- The model gives the move no meaning. -/
inductive Refusal where
  /-- An instruction without a meaning yet. Raised by no arm of this model. Safe. -/
  | notModelled (mnemonic : String)
  /-- The host writes a byte or more to IN while BUSY = 1 (R115, U12). Raised by `in`. Safe. -/
  | inWriteWhileBusy
  /-- START is pulsed while BUSY = 0 with IN_LEN > MAX_IN_LEN (R118, U13). Raised by `start`. Safe. -/
  | startLenTooLong
  /-- The host writes IN_LEN with a value of more than LEN_W bits (R21, log 11). Raised by `wr IN_LEN`. Safe. -/
  | lenTooWide
  deriving DecidableEq, Repr

/-- Command registers at reset: all 0 (R19 to R21, R111). -/
def Command.zero : Command := { op := 0, din := 0, inLen := 0 }

/-- Response fields at reset: all 0 (R25 to R29, R111). -/
def Response.zero : Response := { status := 0, dout := 0, errMask := 0, errPos := 0, outLen := 0 }

/-- The machine after power-on, for a block of any sizes (R111 to R113): registers 0, idle, no byte of IN or OUT
known, latches 0 by DESIGN CHOICE (log 7). -/
def State.powerOn (c : Config) : State where
  cfg := c
  cmd := Command.zero
  busy := false
  respValid := false
  resp := Response.zero
  latch := Command.zero
  inBuf := []
  outBuf := []
  outEpoch := 0
  draws := 0
  pending := []
  got := []

/-- The machine right after reset (R111 to R113), with the sizes of `chosenConfig` (log 1). -/
def State.reset : State := State.powerOn chosenConfig

end Sys2Proof.Machine
end

