-- ==== Sys2Proof/Machine/Operands.lean ====
section
/-! DEFINITION. Operand assembly (20_memory.md R41; 30_encoding.md R59 to R61) and the packed form of the lanes. -/

namespace Sys2Proof.Machine

/-- Raw byte i of a 64-bit operand or result: bits [39-8i : 32-8i], i = 0..4 (R41, R59). -/
def rawByte (d : Word) (i : Fin 5) : Byte := d.extractLsb' (32 - 8 * i.val) 8

/-- Symbol k of a 64-bit operand or result: bits [63-8k : 56-8k] (R41, R60). -/
def symbol (d : Word) (k : Lane) : Byte := d.extractLsb' (56 - 8 * k.val) 8

/-- The 64-bit word of eight symbols, c_0 in the most significant byte (R41). -/
def packSymbols (c : Lane → Byte) : Word := c 0 ++ c 1 ++ c 2 ++ c 3 ++ c 4 ++ c 5 ++ c 6 ++ c 7

/-- zext_64 of a chunk: DOUT[63:40] = 0 (R41, R78). -/
def zextChunk (v : Chunk) : Word := v.setWidth 64

/-- L, the stream length of the command in flight, unscaled (R61). -/
def State.streamLen (s : State) : Nat := s.latch.inLen

end Sys2Proof.Machine
end

