-- ==== Sys2Proof/WellFormed.lean ====
section
/-! DEFINITION. What a well-formed command and a well-formed host move are (30_encoding.md R56, R64, R68; 20_memory.md
R37). The command encoding has no reserved space (R64), so every command is well formed; the checks are on host moves. -/

namespace Sys2Proof

/-- Every command is well formed: no operand fields, no reserved encoding (R64). -/
abbrev Instr.WellFormed (_ : Instr) : Prop := True

/-- A value fits the LEN_W bits of a length field (R21, R28, R29). -/
abbrev Config.FitsLen (c : Config) (n : Nat) : Prop := n < 2 ^ c.lenW

/-- The n indices i to i+n-1 exist in IN (R37). DESIGN CHOICE (log 9): no bytes name no index, so a move of zero bytes
is in range at every i. -/
abbrev Config.InRange (c : Config) (i n : Nat) : Prop := n = 0 ∨ i + n ≤ c.maxInLen

/-- The n indices i to i+n-1 exist in OUT (R37). DESIGN CHOICE (log 9): no bytes name no index, so a move of zero bytes
is in range at every i. -/
abbrev Config.OutRange (c : Config) (i n : Nat) : Prop := n = 0 ∨ i + n ≤ c.maxOutLen

/-- A host move is well formed for a block of the given sizes: it names only bytes and values that exist.
The bytes of a count OUT_LEN are known only when the move is made. -/
def Machine.Action.wellFormed (c : Config) : Machine.Action → Bool
  | .writeIn i bs => decide (c.InRange i bs.length)
  | .wrInLen v => decide (c.FitsLen v)
  | .rdOut i (.lit n) => decide (c.OutRange i n)
  | .rdOut _ .outLen | .wrOp _ | .wrDin _ | .start | .wait | .rd _ => true

end Sys2Proof
end

