-- ==== Sys2Proof/Machine/Ops.lean ====
section
/-! DEFINITION. The shared operations over buffers and registers: MemRead and MemWrite (00_scope.md R9), acceptance
(10_state.md R22, R32), completion (R23) and the error response (60_exceptions.md R97). There is no return from an
error (R99), so none stands beside it. -/

namespace Sys2Proof.Machine

/-- The known byte at index `i`, if something wrote it. -/
def Memory.get? : Memory → Nat → Option Byte
  | [], _ => none
  | (a, b) :: m, i => if a = i then some b else Memory.get? m i

/-- Write one byte, keeping the canonical form. -/
def Memory.set : Memory → Nat → Byte → Memory
  | [], i, v => [(i, v)]
  | (a, b) :: m, i, v =>
    if i < a then (i, v) :: (a, b) :: m
    else if i = a then (i, v) :: m
    else (a, b) :: Memory.set m i v

/-- Write the bytes `bs` at `i`, `i+1`, ... -/
def Memory.setMany : Memory → Nat → List Byte → Memory
  | m, _, [] => m
  | m, i, b :: bs => Memory.setMany (Memory.set m i b) (i + 1) bs

/-- IN[i]: plain storage (R34, R45); a byte nothing has written is a free value (R112). -/
def State.inByte (s : State) (i : Nat) : Byte := (Memory.get? s.inBuf i).getD (Config.freeIn i)

/-- OUT[i]: plain storage (R35); a byte nothing has written since OUT last became unspecified is a free value (R112). -/
def State.outByte (s : State) (i : Nat) : Byte := (Memory.get? s.outBuf i).getD (Config.freeOut s.outEpoch i)

/-- MemRead(OUT, i, n): n bytes in index order (R9), as the host reads them. -/
def State.outBytes (s : State) (i n : Nat) : List Byte := (List.range n).map fun k => s.outByte (i + k)

/-- MemWrite(OUT, i, n, bs) (R9). -/
def State.memWriteOut (s : State) (i : Nat) (bs : List Byte) : State :=
  { s with outBuf := Memory.setMany s.outBuf i bs }

/-- The host writes bytes to IN[i], IN[i+1], ... (R68). -/
def State.memWriteIn (s : State) (i : Nat) (bs : List Byte) : State :=
  { s with inBuf := Memory.setMany s.inBuf i bs }

/-- A value as a LEN_W-bit register holds it (R21, R28, R29; log 2). -/
def toLen (c : Config) (n : Nat) : Nat := n % 2 ^ c.lenW

/-- The `n`-th draw as a LEN_W-bit value. -/
def freeLen (c : Config) (n : Nat) : Nat := (Config.freeBits c.lenW n).toNat

/-- The latches hold unspecified values from here on (R32 "their values between commands are unspecified", R111):
three fresh draws (log 7). -/
def State.forgetLatch (s : State) : State :=
  { s with
    latch :=
      { op := Config.freeBits 2 s.draws, din := Config.freeBits 64 (s.draws + 1), inLen := freeLen s.cfg (s.draws + 2) }
    draws := s.draws + 3 }

/-- Acceptance of START: latch OP, DIN and IN_LEN, BUSY <- 1, RESP_VALID <- 0 (R22, R32). -/
def State.accept (s : State) : State := { s with latch := s.cmd, busy := true, respValid := false }

/-- Write the response fields at their widths, BUSY <- 0 and RESP_VALID <- 1 together (R23); the latches are then
between commands (R32). -/
def State.respond (s : State) (r : Response) : State :=
  State.forgetLatch
    { s with
      resp := { r with errPos := toLen s.cfg r.errPos, outLen := toLen s.cfg r.outLen }
      busy := false
      respValid := true }

/-- Successful completion: `commit(STATUS <- 0, DOUT <- d, ERR_MASK <- 0, ERR_POS <- 0, OUT_LEN <- n)` (R9, R77, R78, R85,
R86). -/
def State.commit (s : State) (d : Word) (n : Nat) : State :=
  s.respond { status := 0, dout := d, errMask := 0, errPos := 0, outLen := n }

/-- The two errors that can occur, with what they record (R90 to R92). -/
inductive CmdError where
  /-- InvalidLength (R90). -/
  | invalidLength
  /-- InvalidCharacter, with the offending lanes and the lowest offending index (R91). -/
  | invalidCharacter (mask : BitVec 8) (pos : Nat)
  deriving DecidableEq, Repr

/-- STATUS code of an error (R90, R91). -/
def CmdError.code : CmdError → BitVec 2
  | .invalidLength => 1
  | .invalidCharacter _ _ => 2

/-- ERR_POS of an error (R97). -/
def CmdError.pos : CmdError → Nat
  | .invalidLength => 0
  | .invalidCharacter _ p => p

/-- ERR_MASK of an error of command `i`: only DEC_BLK reports a mask (R97). -/
def CmdError.mask (i : Instr) : CmdError → BitVec 8
  | .invalidLength => 0
  | .invalidCharacter m _ => if i = .decBlk then m else 0

/-- `raise E(info)`: the error response, the one way any command ends in an error (R97). No byte of OUT or IN and no
command register is written (R98). -/
def State.raise (s : State) (i : Instr) (e : CmdError) : State :=
  s.respond { status := e.code, dout := 0, errMask := e.mask i, errPos := e.pos, outLen := 0 }

/-- Successful completion of a stream command: OUT[0..N-1] and the response become visible together (R46). -/
def State.commitStream (s : State) (bs : List Byte) : Host.Outcome State Fault Refusal :=
  if s.cfg.OutRange 0 bs.length then .next ((s.memWriteOut 0 bs).commit 0 bs.length) else .fault .outIndexAbsent

/-- One thing after another: the second happens only if the first answers a next state. -/
def andThen (o : Host.Outcome State Fault Refusal) (f : State → Host.Outcome State Fault Refusal) :
    Host.Outcome State Fault Refusal :=
  match o with
  | .next s => f s
  | .fault r => .fault r
  | .refused r => .refused r

end Sys2Proof.Machine
end

