-- ==== Sys2Proof/Machine/Block.lean ====
section
/-! DEFINITION. The block commands ENC_BLK and DEC_BLK (40_block_ops.md R77, R78). -/

namespace Sys2Proof.Machine

/-- v of ENC_BLK: BYTES_TO_40 of the five operand bytes, = L_DIN[39:0] (R77). -/
def rawOperand (d : Word) : Chunk := bytesTo40 (rawByte d 0) (rawByte d 1) (rawByte d 2) (rawByte d 3) (rawByte d 4)

/-- ENC_BLK: encode one chunk (R77). -/
def execEncBlk (s : State) : Host.Outcome State Fault Refusal :=
  .next (s.commit (packSymbols (encodeLane (rawOperand s.latch.din))) 0)

/-- DEC_BLK: decode one chunk; every lane is checked before any result is chosen (R78). -/
def execDecBlk (s : State) : Host.Outcome State Fault Refusal :=
  let lane := fun k => rmap (symbol s.latch.din k)
  let m := laneMask fun k => (lane k).valid
  if m ≠ 0 then .next (s.raise .decBlk (.invalidCharacter m (lowestLane m)))
  else .next (s.commit (zextChunk (groupsTo40 fun k => (lane k).idx)) 0)

end Sys2Proof.Machine
end

