-- ==== Sys2Proof/Machine/Stream.lean ====
section
/-! DEFINITION. The sequencer and the stream commands ENC_STR and DEC_STR (41_stream_ops.md R84 to R88). -/

namespace Sys2Proof.Machine

/-- The chunk indices j, j+1, ... (`left` of them) in batches of `par`, the chunks processed at once (R84). A block
processes at least one at a time (R7). Fuel: a batch uses up one unit and at least one chunk. -/
def batches (par : Nat) : Nat → Nat → Nat → List (List Nat)
  | 0, _, _ => []
  | fuel + 1, j, left =>
    if left = 0 then []
    else
      let n := min (max par 1) left
      List.range' j n :: batches par fuel (j + n) (left - n)

/-- The outputs of chunks 0 .. count-1, PAR at a time, concatenated in chunk order (R84). -/
def sequencer (par count : Nat) (chunk : Nat → List Byte) : List Byte :=
  (batches par count 0 count).flatMap fun js => js.flatMap chunk

/-- s_0 ++ s_1 ++ ...: chunk j is IN[5j..5j+4] (R39, R85). -/
def encodeStream (par L : Nat) (inp : Nat → Byte) : List Byte :=
  sequencer par (L / 5) fun j =>
    encodeChunk (bytesTo40 (inp (5 * j)) (inp (5 * j + 1)) (inp (5 * j + 2)) (inp (5 * j + 3)) (inp (5 * j + 4)))

/-- r_0 ++ r_1 ++ ...: chunk j is IN[8j..8j+7] (R39, R86). -/
def decodeStream (par L : Nat) (inp : Nat → Byte) : List Byte :=
  sequencer par (L / 8) fun j => decodeChunk fun k => inp (8 * j + k.val)

/-- ENC_STR: encode a stream. The length is checked first; nothing is read when it fails (R45, R85). -/
def execEncStr (s : State) : Host.Outcome State Fault Refusal :=
  let L := s.streamLen
  if L % 5 ≠ 0 then .next (s.raise .encStr .invalidLength)
  else if ¬ s.cfg.InRange 0 L then .fault .inIndexAbsent
  else s.commitStream (encodeStream s.cfg.par L s.inByte)

/-- DEC_STR: decode a stream. The length is checked first, then every byte, before anything is written (R86, R95). -/
def execDecStr (s : State) : Host.Outcome State Fault Refusal :=
  let L := s.streamLen
  if L % 8 ≠ 0 then .next (s.raise .decStr .invalidLength)
  else if ¬ s.cfg.InRange 0 L then .fault .inIndexAbsent
  else
    match firstBad L fun i => (rmap (s.inByte i)).valid with
    | some p => .next (s.raise .decStr (.invalidCharacter 0 p))
    | none => s.commitStream (decodeStream s.cfg.par L s.inByte)

end Sys2Proof.Machine
end

