-- ==== Sys2Proof/Machine/Dispatch.lean ====
section
/-! DEFINITION. The meaning of each command, one arm per row of the opcode table (30_encoding.md R58). -/

namespace Sys2Proof.Machine

def exec (i : Instr) (s : State) : Host.Outcome State Fault Refusal :=
  match i with
  | .encBlk => Sys2Proof.Machine.execEncBlk s
  | .decBlk => Sys2Proof.Machine.execDecBlk s
  | .encStr => Sys2Proof.Machine.execEncStr s
  | .decStr => Sys2Proof.Machine.execDecStr s

end Sys2Proof.Machine
end

