-- ==== Sys2Proof/Decode.lean ====
section
/-! DEFINITION. Command decode and encode (30_encoding.md R57, R58, R67; opcode_table.json). -/

namespace Sys2Proof

/-- DIR, OP[0]: 0 encode, 1 decode (R57). -/
def dir (op : BitVec 2) : Bool := op.getLsbD 0

/-- GRAN, OP[1]: 0 one chunk from DIN, 1 a stream from IN (R57). -/
def gran (op : BitVec 2) : Bool := op.getLsbD 1

/-- Command decode: total, with no invalid verdict (R58, R67). -/
def decode (op : BitVec 2) : Instr :=
  match gran op, dir op with
  | false, false => .encBlk
  | false, true => .decBlk
  | true, false => .encStr
  | true, true => .decStr

/-- Why a word is no command word. -/
inductive DecodeReject where
  /-- A bit above OP[1:0] is set: OP has two bits and no command has more (R56; log 20). Safe. -/
  | bitAboveOp
  deriving DecidableEq, Repr

/-- Decode of any word laid out as the opcode table numbers its bits: OP is bits 1..0. -/
def decodeWord (w : Nat) : Except DecodeReject Instr :=
  if w < 4 then .ok (decode (BitVec.ofNat 2 w)) else .error .bitAboveOp

/-- The command of a word of `nbits` bits, as the opcode table numbers them. -/
def decodeTableWord (nbits w : Nat) : Option Instr :=
  match decodeWord (w % 2 ^ nbits) with
  | .ok i => some i
  | .error .bitAboveOp => none

/-- The OP value of a command, from the map of R58. -/
def encode : Instr → BitVec 2
  | .encBlk => 0b00#2
  | .decBlk => 0b01#2
  | .encStr => 0b10#2
  | .decStr => 0b11#2

end Sys2Proof
end

