-- ==== Sys2Proof/Machine/HostMoves.lean ====
section
/-! DEFINITION. The host's moves (30_encoding.md R68; 60_exceptions.md R110) and reset (70_reset_and_hazards.md R111,
R112). -/

namespace Sys2Proof.Machine

/-- A fresh draw of one field's width, for a read of the response while BUSY = 1 (10_state.md R33, U9). -/
def State.drawField (s : State) (w : Nat) (f : Field) : State :=
  { s with got := s.got ++ [.field f (Config.freeBits w s.draws).toNat], draws := s.draws + 1 }

/-- A read that returns the value `v` the field holds. -/
def State.reply (s : State) (f : Field) (v : Nat) : State := { s with got := s.got ++ [.field f v] }

/-- A response field: its value while BUSY = 0, a draw of its width while BUSY = 1 (R33, R116). -/
def State.readResponse (s : State) (w : Nat) (f : Field) (v : Nat) : State :=
  if s.busy then s.drawField w f else s.reply f v

/-- `rd F`. BUSY, RESP_VALID and the command registers read as they are at any time; START reads as 0 (R19 to R24,
R110); the response fields are unspecified while BUSY = 1 (R33). -/
def State.readField (s : State) (f : Field) : State :=
  match f with
  | .op => s.reply f s.cmd.op.toNat
  | .din => s.reply f s.cmd.din.toNat
  | .inLen => s.reply f s.cmd.inLen
  | .start => s.reply f 0
  | .busy => s.reply f s.busy.toNat
  | .respValid => s.reply f s.respValid.toNat
  | .status => s.readResponse 2 f s.resp.status.toNat
  | .dout => s.readResponse 64 f s.resp.dout.toNat
  | .errMask => s.readResponse 8 f s.resp.errMask.toNat
  | .errPos => s.readResponse s.cfg.lenW f s.resp.errPos
  | .outLen => s.readResponse s.cfg.lenW f s.resp.outLen

/-- `rd OUT, i, n` for a known n: the bytes while BUSY = 0, a fresh draw each while BUSY = 1 (R33, R46). No bytes are read
as no bytes at every i (log 9). -/
def State.readOut (s : State) (i n : Nat) : Host.Outcome State Fault Refusal :=
  if ¬ s.cfg.OutRange i n then .fault .outIndexAbsent
  else if s.busy then
    .next
      { s with
        got := s.got ++ [.bytes i ((List.range n).map fun k => Config.freeBits 8 (s.draws + k))]
        draws := s.draws + n }
  else .next { s with got := s.got ++ [.bytes i (s.outBytes i n)] }

/-- The count of `rd OUT, i, OUT_LEN` while BUSY = 1: OUT_LEN reads as a draw (R33), and of the bytes it counts the host
gets those that OUT has (log 13), so that no drawn value ends a run. -/
def drawnCount (s : State) (i : Nat) : Nat := min (freeLen s.cfg s.draws) (s.cfg.maxOutLen - i)

/-- START (R22): ignored while BUSY = 1; refused when IN_LEN > MAX_IN_LEN (R118); else accepted. -/
def State.pulseStart (s : State) : Host.Outcome State Fault Refusal :=
  if s.busy then .next s
  else if s.cfg.maxInLen < s.cmd.inLen then .refused .startLenTooLong
  else .next s.accept

/-- One host move (R68). DESIGN CHOICE (log 9): an `in` of no bytes writes nothing, so it is no write to IN and goes on
while BUSY = 1 too; one of any bytes is the move R115 refuses (log 10). `wait` while BUSY = 1 is the schedule's (Machine/Schedule.lean); here it finds BUSY = 0. -/
def hostMove (a : Action) (s : State) : Host.Outcome State Fault Refusal :=
  match a with
  | .writeIn i bs =>
    if s.busy ∧ bs ≠ [] then .refused .inWriteWhileBusy
    else if s.cfg.InRange i bs.length then .next (s.memWriteIn i bs)
    else .fault .inIndexAbsent
  | .wrOp v => .next { s with cmd := { s.cmd with op := v } }
  | .wrDin v => .next { s with cmd := { s.cmd with din := v } }
  | .wrInLen v =>
    if s.cfg.FitsLen v then .next { s with cmd := { s.cmd with inLen := v } } else .refused .lenTooWide
  | .start => s.pulseStart
  | .wait => .next s
  | .rd f => .next (s.readField f)
  | .rdOut i (.lit n) => s.readOut i n
  | .rdOut i .outLen =>
    if s.busy then { s with draws := s.draws + 1 }.readOut i (drawnCount s i) else s.readOut i s.resp.outLen

/-- A stream command is in flight. -/
def State.streamInFlight (s : State) : Bool := s.busy && gran s.latch.op

/-- Every byte of OUT becomes unspecified (R112, U8): nothing stays known, and the draws are new ones (log 6). -/
def State.forgetOut (s : State) : State := { s with outBuf := [], outEpoch := s.outEpoch + 1 }

/-- Reset (R111, R112): the command in flight is abandoned with no response; the registers take their reset values;
IN is not written; OUT becomes unspecified exactly when a stream command was in flight. -/
def State.resetNow (s : State) : State :=
  let t := if s.streamInFlight then s.forgetOut else s
  State.forgetLatch
    { t with cmd := Command.zero, busy := false, respValid := false, resp := Response.zero }

end Sys2Proof.Machine
end

