-- ==== Sys2Proof/Machine/Schedule.lean ====
section
/-! DEFINITION. Which agent moves next and what its move does (00_scope.md R13; 60_exceptions.md R96;
70_reset_and_hazards.md R111, R122; logs 3, 4). -/

namespace Sys2Proof.Machine

/-- The core's step: run the latched command to completion (R32, R67). -/
def State.runCommand (s : State) : Host.Outcome State Fault Refusal := exec (decode s.latch.op) s

/-- The core's move: it completes the command in flight, and is idle without one (R109, R122). -/
def coreMove (s : State) : Host.Outcome State Fault Refusal := if s.busy then s.runCommand else .next s

/-- One event, already taken off `pending`. `wait` polls: while BUSY = 1 the core moves and the wait stands (R68,
R122). Completion and START in one instant: completion first (R96). -/
def takeEvent (e : Event) (s : State) : Host.Outcome State Fault Refusal :=
  match e with
  | .host .wait => if s.busy then { s with pending := .host .wait :: s.pending }.runCommand else .next s
  | .host a => hostMove a s
  | .core => coreMove s
  | .coreStart => andThen (coreMove s) State.pulseStart
  | .reset => .next s.resetNow

/-- One step. STATUS = 3 is a fault of the model wherever it is found (R93, U11). With nothing pending, the core
moves: a command in flight completes (R122), an idle block stays as it is (R109). -/
def advance (s : State) : Host.Outcome State Fault Refusal :=
  if s.resp.status = 3 then .fault .reservedStatus
  else
    match s.pending with
    | [] => coreMove s
    | e :: rest => takeEvent e { s with pending := rest }

/-- The state in which the command with OP word `w` has just been accepted and the core moves next: OP written, START
accepted with DIN and IN_LEN as they stand (R22, R32; log 14). -/
def State.stageCommand (s : State) (w : Nat) : State :=
  let op := BitVec.ofNat 2 w
  let t := State.accept { s with cmd := { s.cmd with op := op } }
  { t with pending := .core :: s.pending }

end Sys2Proof.Machine
end

