-- ==== Sys2Proof/Machine/Step.lean ====
section
/-! DEFINITION. The step function (Machine/Schedule.lean says what it does) and the host's way to place a command. -/

namespace Sys2Proof.Machine

/-- One step of the machine. -/
def step (s : State) : Host.Outcome State Fault Refusal := advance s

/-- The command word `w` of `nbits` bits placed so that the very next step runs it (log 14). OP holds its two low bits. -/
def State.withFetchWord (s : State) (nbits w : Nat) : State := s.stageCommand (w % 2 ^ nbits)

end Sys2Proof.Machine
end

