-- ==== Sys2Proof/Safety.lean ====
section
/-! DEFINITION. What a good state and a safe run are, in the terms the statements use: the invariant, the host's duties
(60_exceptions.md R110) and runs of several steps. -/

namespace Sys2Proof.Machine

/-- The relations between fields of the state that every step keeps. -/
structure State.Inv (s : State) : Prop where
  /-- The parameters meet R7. -/
  cfgOk : s.cfg.Ok
  /-- Both buffers in canonical form, and inside their capacities (R34, R35, R37). -/
  inWf : s.inBuf.wf
  outWf : s.outBuf.wf
  inBelow : s.inBuf.below s.cfg.maxInLen
  outBelow : s.outBuf.below s.cfg.maxOutLen
  /-- Length fields fit LEN_W bits (R21, R28, R29). -/
  inLenFits : s.cfg.FitsLen s.cmd.inLen
  latchFits : s.cfg.FitsLen s.latch.inLen
  errPosFits : s.cfg.FitsLen s.resp.errPos
  outLenFits : s.resp.outLen ≤ s.cfg.maxOutLen
  /-- A command in flight has a length the host's duty allows (R118). -/
  lenDuty : s.busy = true → s.latch.inLen ≤ s.cfg.maxInLen
  /-- RESP_VALID is 0 while a command is in flight (R23, R24). -/
  handshake : s.busy = true → s.respValid = false
  /-- Idle with RESP_VALID = 0 only after reset: the response is at its reset values (R24). -/
  afterReset : s.busy = false → s.respValid = false → s.resp = Response.zero
  /-- STATUS = 3 is never produced (R93). -/
  noReserved : s.resp.status ≠ 3
  /-- An error response carries no output (R97); only InvalidCharacter carries a position or a mask (R27, R28). -/
  errorNoOutput : s.resp.status ≠ 0 → s.resp.dout = 0 ∧ s.resp.outLen = 0
  onlyBadCharPos : s.resp.status ≠ 2 → s.resp.errPos = 0 ∧ s.resp.errMask = 0

/-- The host move keeps the host's duties and names only bytes and values that exist (R110, R115, R118). -/
def State.dutiful (s : State) : Action → Prop
  | .writeIn i bs => (s.busy = false ∨ bs = []) ∧ s.cfg.InRange i bs.length
  | .wrInLen v => s.cfg.FitsLen v
  | .start => s.busy = false → s.cmd.inLen ≤ s.cfg.maxInLen
  | .rdOut i (.lit n) => s.cfg.OutRange i n
  | .rdOut i .outLen => s.busy = false → s.cfg.OutRange i s.resp.outLen
  | .wrOp _ | .wrDin _ | .wait | .rd _ => True

/-- The next event keeps the host's duties. A START in the instant of completion meets BUSY = 0 (R96). -/
def State.nextDutiful (s : State) : Prop :=
  match s.pending with
  | .host a :: _ => s.dutiful a
  | .coreStart :: _ => s.cmd.inLen ≤ s.cfg.maxInLen
  | .core :: _ | .reset :: _ | [] => True

/-- An event that keeps the host's duties in every state: no write to IN, no read of OUT, no write of IN_LEN, no reset;
a START is harmless only while BUSY = 1. -/
def Event.quiet : Event → Bool
  | .host (.wrOp _) | .host (.wrDin _) | .host .start | .host .wait | .host (.rd _) | .core => true
  | .host (.writeIn _ _) | .host (.wrInLen _) | .host (.rdOut _ _) | .coreStart | .reset => false

/-- What no command writes: the parameters, the command registers, IN, the schedule and what the host has read
(R98, R34); OUT is not made unspecified. -/
structure State.Untouched (s t : State) : Prop where
  cfg : t.cfg = s.cfg
  cmd : t.cmd = s.cmd
  inBytes : ∀ a, t.inByte a = s.inByte a
  pending : t.pending = s.pending
  got : t.got = s.got
  outEpoch : t.outEpoch = s.outEpoch

/-- Every byte of OUT reads as before. -/
def State.SameOut (s t : State) : Prop := ∀ a, t.outByte a = s.outByte a

/-- The command is complete: BUSY = 0 and RESP_VALID = 1 (R23). -/
def State.Done (t : State) : Prop := t.busy = false ∧ t.respValid = true

/-- The response of a success: STATUS 0, DOUT and OUT_LEN as given, no error information (R77, R78, R85, R86). -/
def State.Succeeded (t : State) (d : Word) (n : Nat) : Prop :=
  t.Done ∧ t.resp = { status := 0, dout := d, errMask := 0, errPos := 0, outLen := n }

/-- The response of an error (R97). -/
def State.Failed (t : State) (code : BitVec 2) (mask : BitVec 8) (pos : Nat) : Prop :=
  t.Done ∧ t.resp = { status := code, dout := 0, errMask := mask, errPos := pos, outLen := 0 }

/-- A state with another PAR. -/
def State.withPar (s : State) (p : Nat) : State := { s with cfg := { s.cfg with par := p } }

/-- An outcome with its next state changed by `f`; stops stay as they are. -/
def mapNext (f : State → State) (o : Host.Outcome State Fault Refusal) : Host.Outcome State Fault Refusal :=
  match o with
  | .next s => .next (f s)
  | .fault r => .fault r
  | .refused r => .refused r

/-- A read of a response field or of OUT. -/
def Action.readsResponse : Action → Bool
  | .rd .status | .rd .dout | .rd .errMask | .rd .errPos | .rd .outLen => true
  | .rdOut _ _ => true
  | .rd .op | .rd .din | .rd .inLen | .rd .start | .rd .busy | .rd .respValid => false
  | .writeIn _ _ | .wrOp _ | .wrDin _ | .wrInLen _ | .start | .wait => false

end Sys2Proof.Machine
end

