-- ==== Sys2Proof/Certificates/Slice0/Obligations.lean ====
section
/-! DEFINITION. The statements about the block. Each docstring names the rule of spec/ it rests on. -/

open Sys2Proof Sys2Proof.Machine

/-! ### Command encoding -/

/-- 30_encoding.md R58: the OP value map, on the words of the opcode table. -/
def Obligations.TableWordsDecode : Prop :=
  decodeTableWord 8 0b00 = some .encBlk ∧ decodeTableWord 8 0b01 = some .decBlk ∧
  decodeTableWord 8 0b10 = some .encStr ∧ decodeTableWord 8 0b11 = some .decStr

/-- Encode and decode are inverse (30_encoding.md R57, R58, R67), and a word with a bit above OP[1:0] is rejected, which
is the model's choice (log 20). -/
def Obligations.EncodeDecodeAgree : Prop :=
  (∀ i, decode (encode i) = i) ∧ (∀ op, encode (decode op) = op) ∧
  (∀ nbits i, 2 ≤ nbits → decodeTableWord nbits (encode i).toNat = some i) ∧
  (∀ nbits w, 4 ≤ w % 2 ^ nbits → decodeTableWord nbits w = none)

/-- 30_encoding.md R64: no OP value without a command, the don't-care operand bits change no result, STATUS 3 is never
produced. -/
def Obligations.DontCareBitsChangeNothing : Prop :=
  (∀ op : BitVec 2, ∃ i, encode i = op ∧ decode op = i) ∧
  (∀ (s : State) (d : Word), d.extractLsb' 0 40 = s.latch.din.extractLsb' 0 40 →
    exec .encBlk { s with latch := { s.latch with din := d } } = exec .encBlk s) ∧
  (∀ (s : State) (d : Word) i, i = .encStr ∨ i = .decStr →
    exec i { s with latch := { s.latch with din := d } } = exec i s) ∧
  (∀ (s : State) (n : Nat) i, i = .encBlk ∨ i = .decBlk →
    exec i { s with latch := { s.latch with inLen := n } } = exec i s) ∧
  (∀ i s t, exec i s = .next t → t.resp.status ≠ 3)

/-! ### Tables and datapath -/

/-- 30_encoding.md R62: the 32 entries of ALPHABET, in closed form, all distinct. -/
def Obligations.AlphabetContents : Prop :=
  (∀ g : Group, (g.toNat < 26 → (map g).toNat = 0x41 + g.toNat) ∧ (26 ≤ g.toNat → (map g).toNat = 0x17 + g.toNat)) ∧
  (∀ g h : Group, map g = map h → g = h)

/-- RLUT is the reverse of ALPHABET: valid exactly on the symbols, with the symbol's own index, else {0, 0}
(10_state.md R31, 40_block_ops.md R73). -/
def Obligations.ReverseTableInvertsAlphabet : Prop :=
  ∀ c : Byte, ((rmap c).valid = true ↔ IsSymbol c) ∧
    (∀ g, map g = c → rmap c = { valid := true, idx := g }) ∧
    (¬ IsSymbol c → rmap c = { valid := false, idx := 0 })

/-- EXTRACT undoes GROUPS_TO_40, and the accumulation is the concatenation {g0, ..., g7} (40_block_ops.md R76, which
marks both as derived). -/
def Obligations.GroupsPackAndExtract : Prop :=
  (∀ (g : Lane → Group) k, extract (groupsTo40 g) k = g k) ∧
  (∀ g : Lane → Group, groupsTo40 g = g 0 ++ g 1 ++ g 2 ++ g 3 ++ g 4 ++ g 5 ++ g 6 ++ g 7) ∧
  (∀ v : Chunk, groupsTo40 (extract v) = v)

/-- BYTES_OF_40 and BYTES_TO_40 are inverses (40_block_ops.md R75, derived there). -/
def Obligations.ChunkBytesInverse : Prop :=
  (∀ b0 b1 b2 b3 b4, bytesOf40 (bytesTo40 b0 b1 b2 b3 b4) = [b0, b1, b2, b3, b4]) ∧
  (∀ v b0 b1 b2 b3 b4, bytesOf40 v = [b0, b1, b2, b3, b4] → bytesTo40 b0 b1 b2 b3 b4 = v)

/-- Big-endian lanes of the 64-bit operands and results (20_memory.md R41): the five raw bytes are DIN[39:0], and the
eight symbols of a word are its bytes from the top. -/
def Obligations.LanesAreBigEndian : Prop :=
  (∀ d : Word, rawOperand d = d.extractLsb' 0 40) ∧
  (∀ (c : Lane → Byte) k, symbol (packSymbols c) k = c k) ∧
  (∀ d : Word, packSymbols (symbol d) = d) ∧
  (∀ (v : Chunk) (i : Fin 5), (bytesOf40 v)[i.val]? = some (rawByte (zextChunk v) i)) ∧
  (∀ v : Chunk, (zextChunk v).extractLsb' 40 24 = 0)

/-! ### Block commands -/

/-- 40_block_ops.md R77: ENC_BLK completes from every state with STATUS 0; symbol k of DOUT is ALPHABET at
L_DIN[39-5k : 35-5k]; IN and OUT are not touched. -/
def Obligations.EncBlkEncodesChunk : Prop :=
  ∀ s, ∃ t, exec .encBlk s = .next t ∧ t.Succeeded t.resp.dout 0 ∧
    (∀ k : Lane, symbol t.resp.dout k = map (s.latch.din.extractLsb' (35 - 5 * k.val) 5)) ∧
    s.Untouched t ∧ s.SameOut t

/-- 40_block_ops.md R78: DEC_BLK completes from every state. With eight symbols: STATUS 0 and DOUT the packed groups.
With any other byte: STATUS 2, ERR_MASK every offending lane, ERR_POS the lowest. `3 ≤ LEN_W` is R7's constraint. -/
def Obligations.DecBlkDecodesOrReports : Prop :=
  ∀ s : State, 3 ≤ s.cfg.lenW →
    ((∀ k, IsSymbol (symbol s.latch.din k)) →
      ∃ t, exec .decBlk s = .next t ∧
        t.Succeeded (zextChunk (groupsTo40 fun k => (rmap (symbol s.latch.din k)).idx)) 0 ∧
        (∀ k, map (t.resp.dout.extractLsb' (35 - 5 * k.val) 5) = symbol s.latch.din k) ∧
        t.resp.dout.extractLsb' 40 24 = 0 ∧ s.Untouched t ∧ s.SameOut t) ∧
    ((∃ k, ¬ IsSymbol (symbol s.latch.din k)) →
      ∃ t, exec .decBlk s = .next t ∧ t.Failed 2 t.resp.errMask t.resp.errPos ∧
        (∀ k : Lane, t.resp.errMask.getLsbD k.val = true ↔ ¬ IsSymbol (symbol s.latch.din k)) ∧
        (∃ k : Lane, t.resp.errPos = k.val ∧ ¬ IsSymbol (symbol s.latch.din k) ∧
          ∀ j < k, IsSymbol (symbol s.latch.din j)) ∧
        s.Untouched t ∧ s.SameOut t)

/-- Alphabet closure of both encoders (40_block_ops.md R83, derived there). -/
def Obligations.EncodersWriteOnlySymbols : Prop :=
  (∀ s t, exec .encBlk s = .next t → ∀ k, IsSymbol (symbol t.resp.dout k)) ∧
  (∀ s t, exec .encStr s = .next t → ∀ i < t.resp.outLen, IsSymbol (t.outByte i))

/-- Encode then decode gives every 40-bit chunk back (40_block_ops.md R82, derived there): whatever ENC_BLK answers,
DEC_BLK of that DOUT succeeds with the chunk. -/
def Obligations.BlockEncodeThenDecode : Prop :=
  ∀ s t u, exec .encBlk s = .next t → u.latch.din = t.resp.dout →
    ∃ v, exec .decBlk u = .next v ∧ v.Succeeded (zextChunk (s.latch.din.extractLsb' 0 40)) 0

/-- Decode then encode gives every string of eight symbols back (40_block_ops.md R82, derived there). -/
def Obligations.BlockDecodeThenEncode : Prop :=
  ∀ s t u, exec .decBlk s = .next t → t.resp.status = 0 → u.latch.din = t.resp.dout →
    ∃ v, exec .encBlk u = .next v ∧ v.Succeeded s.latch.din 0

/-- The frame of the block commands: no byte of IN or OUT, no command register, no parameter, nothing of the schedule
(20_memory.md R37, 40_block_ops.md R77, R78); BUSY, RESP_VALID, the response and the latches are what they write. -/
def Obligations.BlockCommandsFrame : Prop :=
  ∀ i s t, i = .encBlk ∨ i = .decBlk → exec i s = .next t → s.Untouched t ∧ s.SameOut t

/-! ### Stream commands -/

/-- 60_exceptions.md R90: InvalidLength, when it is raised and what it records; nothing else raises it, so the block
commands never do. -/
def Obligations.InvalidLengthReported : Prop :=
  (∀ s : State, s.latch.inLen % 5 ≠ 0 → ∃ t, exec .encStr s = .next t ∧ t.Failed 1 0 0 ∧ s.Untouched t ∧ s.SameOut t) ∧
  (∀ s : State, s.latch.inLen % 8 ≠ 0 → ∃ t, exec .decStr s = .next t ∧ t.Failed 1 0 0 ∧ s.Untouched t ∧ s.SameOut t) ∧
  (∀ i s t, exec i s = .next t → t.resp.status = 1 →
    i = .encStr ∧ s.latch.inLen % 5 ≠ 0 ∨ i = .decStr ∧ s.latch.inLen % 8 ≠ 0)

/-- 60_exceptions.md R91: InvalidCharacter, exactly when it is raised, and what it records: the lowest offending index,
and for DEC_BLK every offending lane. A lane number needs `3 ≤ LEN_W` (R7), an index of IN a length that fits LEN_W. -/
def Obligations.InvalidCharacterReported : Prop :=
  (∀ i s t, exec i s = .next t →
    (t.resp.status = 2 ↔
      i = .decBlk ∧ (∃ k, ¬ IsSymbol (symbol s.latch.din k)) ∨
      i = .decStr ∧ s.latch.inLen % 8 = 0 ∧ ∃ p < s.latch.inLen, ¬ IsSymbol (s.inByte p))) ∧
  (∀ s t : State, 3 ≤ s.cfg.lenW → exec .decBlk s = .next t → t.resp.status = 2 →
    (∀ k : Lane, t.resp.errMask.getLsbD k.val = true ↔ ¬ IsSymbol (symbol s.latch.din k)) ∧
    ∃ k : Lane, t.resp.errPos = k.val ∧ ¬ IsSymbol (symbol s.latch.din k) ∧ ∀ j < k, IsSymbol (symbol s.latch.din j)) ∧
  (∀ s t : State, s.cfg.FitsLen s.latch.inLen → exec .decStr s = .next t → t.resp.status = 2 →
    t.resp.errMask = 0 ∧ t.resp.errPos < s.latch.inLen ∧ ¬ IsSymbol (s.inByte t.resp.errPos) ∧
    ∀ j < t.resp.errPos, IsSymbol (s.inByte j))

/-- 41_stream_ops.md R85: ENC_STR. A length that is no multiple of 5 is reported and nothing is written; else it
completes with OUT_LEN = (L/5)*8 and OUT[8j+k] the k-th symbol of chunk j; OUT beyond is unchanged. It never reports
InvalidCharacter. The premises are R7's constraints and the host's duty R118. -/
def Obligations.EncStrEncodesStream : Prop :=
  ∀ s : State, s.cfg.Ok → s.latch.inLen ≤ s.cfg.maxInLen →
    (s.latch.inLen % 5 ≠ 0 → ∃ t, exec .encStr s = .next t ∧ t.Failed 1 0 0 ∧ s.Untouched t ∧ s.SameOut t) ∧
    (s.latch.inLen % 5 = 0 →
      ∃ t, exec .encStr s = .next t ∧ t.Succeeded 0 (s.latch.inLen / 5 * 8) ∧
        (∀ j < s.latch.inLen / 5, ∀ k : Lane,
          t.outByte (8 * j + k.val) =
            map (extract (bytesTo40 (s.inByte (5 * j)) (s.inByte (5 * j + 1)) (s.inByte (5 * j + 2))
              (s.inByte (5 * j + 3)) (s.inByte (5 * j + 4))) k)) ∧
        (∀ a, s.latch.inLen / 5 * 8 ≤ a → t.outByte a = s.outByte a) ∧ s.Untouched t) ∧
    (∀ t, exec .encStr s = .next t → t.resp.status ≠ 2)

/-- 41_stream_ops.md R86: DEC_STR. The length is checked first, then every byte, and ERR_POS is the lowest offending
index; else it completes with OUT_LEN = (L/8)*5 and OUT[5j..5j+4] the five bytes of chunk j; OUT beyond is unchanged.
The premises are R7's constraints and the host's duty R118. -/
def Obligations.DecStrDecodesOrReports : Prop :=
  ∀ s : State, s.cfg.Ok → s.latch.inLen ≤ s.cfg.maxInLen →
    (s.latch.inLen % 8 ≠ 0 → ∃ t, exec .decStr s = .next t ∧ t.Failed 1 0 0 ∧ s.Untouched t ∧ s.SameOut t) ∧
    (∀ p, s.latch.inLen % 8 = 0 → p < s.latch.inLen → ¬ IsSymbol (s.inByte p) →
      (∀ i < p, IsSymbol (s.inByte i)) →
      ∃ t, exec .decStr s = .next t ∧ t.Failed 2 0 p ∧ s.Untouched t ∧ s.SameOut t) ∧
    (s.latch.inLen % 8 = 0 → (∀ i < s.latch.inLen, IsSymbol (s.inByte i)) →
      ∃ t, exec .decStr s = .next t ∧ t.Succeeded 0 (s.latch.inLen / 8 * 5) ∧
        (∀ j < s.latch.inLen / 8, ∀ i : Fin 5,
          (bytesOf40 (groupsTo40 fun k => (rmap (s.inByte (8 * j + k.val))).idx))[i.val]? =
            some (t.outByte (5 * j + i.val))) ∧
        (∀ a, s.latch.inLen / 8 * 5 ≤ a → t.outByte a = s.outByte a) ∧ s.Untouched t)

/-- The frame of the stream commands, in every state: everything but OUT[0..OUT_LEN-1], BUSY, RESP_VALID, the response
and the latches is unchanged (20_memory.md R40, 10_state.md R35). The bytes stored are those below the output length the
meaning writes, (L/5)*8 or (L/8)*5, and none on an error. -/
def Obligations.StreamCommandsFrame : Prop :=
  (∀ s t, exec .encStr s = .next t → s.Untouched t ∧
    ∀ a, t.resp.status ≠ 0 ∨ s.latch.inLen / 5 * 8 ≤ a → t.outByte a = s.outByte a) ∧
  (∀ s t, exec .decStr s = .next t → s.Untouched t ∧
    ∀ a, t.resp.status ≠ 0 ∨ s.latch.inLen / 8 * 5 ≤ a → t.outByte a = s.outByte a)

/-- The length law, exact, and the output fits OUT (41_stream_ops.md R87, derived there). -/
def Obligations.StreamLengthLaw : Prop :=
  (∀ s t, s.cfg.Ok → exec .encStr s = .next t → t.resp.status = 0 →
    5 * t.resp.outLen = 8 * s.latch.inLen ∧ t.resp.outLen ≤ s.cfg.maxOutLen) ∧
  (∀ s t, s.cfg.Ok → exec .decStr s = .next t → t.resp.status = 0 →
    8 * t.resp.outLen = 5 * s.latch.inLen ∧ t.resp.outLen ≤ s.cfg.maxOutLen)

/-- 41_stream_ops.md R88: the empty stream succeeds for both commands, whatever IN holds, and writes no byte of OUT. -/
def Obligations.EmptyStreamSucceeds : Prop :=
  ∀ (s : State) i, i = .encStr ∨ i = .decStr → s.latch.inLen = 0 →
    ∃ t, t.Succeeded 0 0 ∧ s.Untouched t ∧ s.SameOut t ∧
      ∀ m, exec i { s with inBuf := m } = .next { t with inBuf := m }

/-- A one-chunk stream is the block command on the same bytes (41_stream_ops.md R85, R86, derived there). -/
def Obligations.OneChunkStreamIsBlock : Prop :=
  (∀ s u tb, s.cfg.Ok → 5 ≤ s.cfg.maxInLen → s.latch.inLen = 5 → (∀ i : Fin 5, s.inByte i.val = rawByte u.latch.din i) →
    exec .encBlk u = .next tb →
    ∃ t, exec .encStr s = .next t ∧ t.Succeeded 0 8 ∧ ∀ k : Lane, t.outByte k.val = symbol tb.resp.dout k) ∧
  (∀ s u tb, s.cfg.Ok → 8 ≤ s.cfg.maxInLen → s.latch.inLen = 8 → (∀ k : Lane, s.inByte k.val = symbol u.latch.din k) →
    exec .decBlk u = .next tb → tb.resp.status = 0 →
    ∃ t, exec .decStr s = .next t ∧ t.Succeeded 0 5 ∧ ∀ i : Fin 5, t.outByte i.val = rawByte tb.resp.dout i)

/-- Stream round trip, encode then decode (41_stream_ops.md R89, derived there): ENC_STR of 5n bytes succeeds, and in
any state whose IN holds a copy of that output, DEC_STR with L = 8n succeeds and gives the bytes back. -/
def Obligations.StreamEncodeThenDecode : Prop :=
  ∀ (s : State) n, s.cfg.Ok → s.latch.inLen = 5 * n → 5 * n ≤ s.cfg.maxInLen → 8 * n ≤ s.cfg.maxInLen →
    ∃ t, exec .encStr s = .next t ∧ t.Succeeded 0 (8 * n) ∧
      ∀ u : State, u.cfg = s.cfg → u.latch.inLen = 8 * n → (∀ i < 8 * n, u.inByte i = t.outByte i) →
        ∃ v, exec .decStr u = .next v ∧ v.Succeeded 0 (5 * n) ∧ ∀ i < 5 * n, v.outByte i = s.inByte i

/-- Stream round trip, decode then encode (41_stream_ops.md R89, derived there), for every stream of 8n symbols. -/
def Obligations.StreamDecodeThenEncode : Prop :=
  ∀ (s : State) n, s.cfg.Ok → s.latch.inLen = 8 * n → 8 * n ≤ s.cfg.maxInLen → (∀ i < 8 * n, IsSymbol (s.inByte i)) →
    ∃ t, exec .decStr s = .next t ∧ t.Succeeded 0 (5 * n) ∧
      ∀ u : State, u.cfg = s.cfg → u.latch.inLen = 5 * n → (∀ i < 5 * n, u.inByte i = t.outByte i) →
        ∃ v, exec .encStr u = .next v ∧ v.Succeeded 0 (8 * n) ∧ ∀ i < 8 * n, v.outByte i = s.inByte i

/-- PAR is unobservable (00_scope.md R7, 20_memory.md R51, 41_stream_ops.md R84): with another number of chunks at once
every command gives the same outcome. -/
def Obligations.ParallelismUnobservable : Prop :=
  ∀ i (s : State) p, exec i (s.withPar p) = mapNext (fun t => t.withPar p) (exec i s)

/-- Bytes of IN at or past L are not read, and a stream of wrong length reads nothing (20_memory.md R39, R45): a state
whose IN agrees on the bytes that are read gives the same outcome, its own IN unchanged. -/
def Obligations.UnreadBytesDoNotMatter : Prop :=
  (∀ (s : State) m, (s.latch.inLen % 5 = 0 → ∀ a < s.latch.inLen, { s with inBuf := m }.inByte a = s.inByte a) →
    exec .encStr { s with inBuf := m } = mapNext (fun t => { t with inBuf := m }) (exec .encStr s)) ∧
  (∀ (s : State) m, (s.latch.inLen % 8 = 0 → ∀ a < s.latch.inLen, { s with inBuf := m }.inByte a = s.inByte a) →
    exec .decStr { s with inBuf := m } = mapNext (fun t => { t with inBuf := m }) (exec .decStr s))

/-- An index that no buffer has stops the machine by name (20_memory.md R37, R49): a stream that would read past IN, a host
write while BUSY = 0 one of whose bytes lies past IN, a host read one of whose bytes lies past OUT. That such a move is a
fault is the model's choice (log 9). -/
def Obligations.AbsentIndicesFault : Prop :=
  (∀ s : State, s.latch.inLen % 5 = 0 → s.cfg.maxInLen < s.latch.inLen → exec .encStr s = .fault .inIndexAbsent) ∧
  (∀ s : State, s.latch.inLen % 8 = 0 → s.cfg.maxInLen < s.latch.inLen → exec .decStr s = .fault .inIndexAbsent) ∧
  (∀ (s : State) i bs k, s.busy = false → k < bs.length → s.cfg.maxInLen ≤ i + k →
    hostMove (.writeIn i bs) s = .fault .inIndexAbsent) ∧
  (∀ (s : State) i n k, k < n → s.cfg.maxOutLen ≤ i + k → hostMove (.rdOut i (.lit n)) s = .fault .outIndexAbsent) ∧
  (∀ (s : State) i k, s.busy = false → k < s.resp.outLen → s.cfg.maxOutLen ≤ i + k →
    hostMove (.rdOut i .outLen) s = .fault .outIndexAbsent)

/-! ### Errors -/

/-- 60_exceptions.md R97: the error response, whichever command raises which error. The position is a LEN_W-bit value
(R28). -/
def Obligations.ErrorResponseWritten : Prop :=
  ∀ (s : State) i,
    ((s.raise i .invalidLength).Failed 1 0 0 ∧ s.Untouched (s.raise i .invalidLength) ∧
      s.SameOut (s.raise i .invalidLength)) ∧
    (∀ m p, s.cfg.FitsLen p →
      (s.raise i (.invalidCharacter m p)).Failed 2 (if i = .decBlk then m else 0) p ∧
      s.Untouched (s.raise i (.invalidCharacter m p)) ∧ s.SameOut (s.raise i (.invalidCharacter m p)))

/-- 60_exceptions.md R98: errors are precise. A command that ends in an error changes nothing but the response of R97:
BUSY, RESP_VALID, the response fields, and the latches, which hold nothing between commands (R32). -/
def Obligations.ErrorsArePrecise : Prop :=
  ∀ i s t, exec i s = .next t → t.resp.status ≠ 0 →
    t = { s with busy := false, respValid := true, resp := t.resp, latch := t.latch, draws := t.draws } ∧
    t.resp.dout = 0 ∧ t.resp.outLen = 0 ∧ s.SameOut t

/-- 60_exceptions.md R93: no command ever writes STATUS = 3, and a model that finds it stops with a fault. -/
def Obligations.ReservedStatusIsModelFault : Prop :=
  (∀ i s t, exec i s = .next t → t.resp.status ≠ 3) ∧
  (∀ s : State, s.resp.status = 3 → step s = .fault .reservedStatus)

/-- 00_scope.md R14: no state from one command to the next affects a later result. Two states that agree on the
parameters, the latched operands and IN give the same response and the same output bytes, whatever their response
fields, OUT, command registers, handshake and history. -/
def Obligations.CommandsKeepNoHistory : Prop :=
  ∀ i (s u t : State), u.cfg = s.cfg → u.latch.din = s.latch.din → u.latch.inLen = s.latch.inLen →
    (∀ a, u.inByte a = s.inByte a) → exec i s = .next t →
    ∃ v, exec i u = .next v ∧ v.resp = t.resp ∧ ∀ a < t.resp.outLen, v.outByte a = t.outByte a

/-! ### Handshake and host moves -/

/-- 10_state.md R22: a START pulsed while BUSY = 0 is accepted (latches, BUSY 1, RESP_VALID 0), one pulsed while BUSY = 1
changes nothing, START reads as 0, and nothing is in flight after reset. IN_LEN ≤ MAX_IN_LEN is the duty of R118. -/
def Obligations.StartHandshake : Prop :=
  (∀ (s : State) rest, s.resp.status ≠ 3 → s.pending = .host .start :: rest → s.busy = false →
    s.cmd.inLen ≤ s.cfg.maxInLen →
    step s = .next { s with latch := s.cmd, busy := true, respValid := false, pending := rest }) ∧
  (∀ (s : State) rest, s.resp.status ≠ 3 → s.pending = .host .start :: rest → s.busy = true →
    step s = .next { s with pending := rest }) ∧
  (∀ (s : State) rest, s.resp.status ≠ 3 → s.pending = .host (.rd .start) :: rest →
    step s = .next { s with pending := rest, got := s.got ++ [.field .start 0] }) ∧
  (∀ s : State, s.resetNow.busy = false)

/-- 10_state.md R32, 20_memory.md R54, 70_reset_and_hazards.md R121: the command runs from the latched copies; command
registers written after acceptance change nothing of its outcome. -/
def Obligations.CommandRunsFromLatches : Prop :=
  ∀ i (s : State) c, exec i { s with cmd := c } = mapNext (fun t => { t with cmd := c }) (exec i s)

/-- 10_state.md R23: BUSY is 1 from acceptance to completion. Acceptance sets it, every completing command clears it and
sets RESP_VALID together, no other host move changes either, and reset clears it. -/
def Obligations.BusyFromAcceptanceToCompletion : Prop :=
  (∀ s t : State, s.busy = false → hostMove .start s = .next t → t.busy = true ∧ t.respValid = false) ∧
  (∀ i s t, exec i s = .next t → t.busy = false ∧ t.respValid = true) ∧
  (∀ a s t, a ≠ .start → hostMove a s = .next t → t.busy = s.busy ∧ t.respValid = s.respValid) ∧
  (∀ s : State, s.resetNow.busy = false) ∧ State.reset.busy = false

/-- 70_reset_and_hazards.md R118: a START pulsed while BUSY = 0 with IN_LEN > MAX_IN_LEN is refused, the START in the
instant of a completion too, which samples BUSY = 0 (60_exceptions.md R96). -/
def Obligations.StartTooLongRefused : Prop :=
  (∀ (s : State) rest, s.resp.status ≠ 3 → s.pending = .host .start :: rest → s.busy = false →
    s.cfg.maxInLen < s.cmd.inLen → step s = .refused .startLenTooLong) ∧
  (∀ (s : State) rest, s.resp.status ≠ 3 → s.pending = .coreStart :: rest → s.busy = false →
    s.cfg.maxInLen < s.cmd.inLen → step s = .refused .startLenTooLong) ∧
  (∀ (s : State) rest t, s.resp.status ≠ 3 → s.pending = .coreStart :: rest → s.busy = true →
    exec (decode s.latch.op) { s with pending := rest } = .next t → s.cfg.maxInLen < s.cmd.inLen →
    step s = .refused .startLenTooLong)

/-- 70_reset_and_hazards.md R115: the model gives the host no write to IN while BUSY = 1, so every command finds IN as it
was at acceptance: no host move while BUSY = 1 changes a byte of IN. An `in` of no bytes is no write (log 9). -/
def Obligations.InNotWrittenWhileBusy : Prop :=
  (∀ (s : State) rest i bs, s.resp.status ≠ 3 → s.pending = .host (.writeIn i bs) :: rest → s.busy = true →
    bs ≠ [] → step s = .refused .inWriteWhileBusy) ∧
  (∀ a s t, s.busy = true → hostMove a s = .next t → ∀ x, t.inByte x = s.inByte x)

/-- The host's `in i, b0, b1, ...` while BUSY = 0 (30_encoding.md R68, 10_state.md R34): the bytes read back, every other
byte of IN and all of OUT is unchanged. A write of no bytes goes on at every i and while BUSY = 1 too, which is the model's
choice (log 9). -/
def Obligations.HostWritesInReadBack : Prop :=
  ∀ (s : State) i bs, s.busy = false ∨ bs = [] → s.cfg.InRange i bs.length →
    ∃ t, hostMove (.writeIn i bs) s = .next t ∧
      (∀ k b, bs[k]? = some b → t.inByte (i + k) = b) ∧
      (∀ a, a < i ∨ i + bs.length ≤ a → t.inByte a = s.inByte a) ∧
      s.SameOut t ∧ t = { s with inBuf := t.inBuf }

/-- 20_memory.md R38: IN and OUT are disjoint. No command changes a byte of IN, and no host write to IN changes a byte of
OUT. -/
def Obligations.BuffersAreDisjoint : Prop :=
  (∀ i s t, exec i s = .next t → ∀ a, t.inByte a = s.inByte a) ∧
  (∀ i bs s t, hostMove (.writeIn i bs) s = .next t → s.SameOut t)

/-- Host writes of the command registers (10_state.md R19, R20, R21, R110): each writes its register alone, at any time.
A value wider than LEN_W is refused, which is the model's choice (log 11). -/
def Obligations.HostWritesCommandRegisters : Prop :=
  (∀ s v, hostMove (.wrOp v) s = .next { s with cmd := { s.cmd with op := v } }) ∧
  (∀ s v, hostMove (.wrDin v) s = .next { s with cmd := { s.cmd with din := v } }) ∧
  (∀ (s : State) v, v < 2 ^ s.cfg.lenW → hostMove (.wrInLen v) s = .next { s with cmd := { s.cmd with inLen := v } }) ∧
  (∀ (s : State) v, ¬ v < 2 ^ s.cfg.lenW → hostMove (.wrInLen v) s = .refused .lenTooWide)

/-- What a read shows while BUSY = 0: the fields as they are, and the bytes of OUT (10_state.md R23 to R29, R35), for a
count that is a number and for the count OUT_LEN (30_encoding.md R68, R69); a read changes nothing else. A read of no
bytes goes on at every i, which is the model's choice (log 9). -/
def Obligations.IdleReadsShowFields : Prop :=
  ∀ s : State, s.busy = false →
    hostMove (.rd .status) s = .next { s with got := s.got ++ [.field .status s.resp.status.toNat] } ∧
    hostMove (.rd .dout) s = .next { s with got := s.got ++ [.field .dout s.resp.dout.toNat] } ∧
    hostMove (.rd .errMask) s = .next { s with got := s.got ++ [.field .errMask s.resp.errMask.toNat] } ∧
    hostMove (.rd .errPos) s = .next { s with got := s.got ++ [.field .errPos s.resp.errPos] } ∧
    hostMove (.rd .outLen) s = .next { s with got := s.got ++ [.field .outLen s.resp.outLen] } ∧
    hostMove (.rd .busy) s = .next { s with got := s.got ++ [.field .busy 0] } ∧
    hostMove (.rd .respValid) s = .next { s with got := s.got ++ [.field .respValid s.respValid.toNat] } ∧
    (∀ i n, s.cfg.OutRange i n →
      ∃ bs, hostMove (.rdOut i (.lit n)) s = .next { s with got := s.got ++ [.bytes i bs] } ∧
        bs.length = n ∧ ∀ k < n, bs[k]? = some (s.outByte (i + k))) ∧
    (∀ i, s.cfg.OutRange i s.resp.outLen →
      ∃ bs, hostMove (.rdOut i .outLen) s = .next { s with got := s.got ++ [.bytes i bs] } ∧
        bs.length = s.resp.outLen ∧ ∀ k < s.resp.outLen, bs[k]? = some (s.outByte (i + k)))

/-- BUSY, RESP_VALID and the command registers read as they are at any time, and START reads as 0 (10_state.md R19 to R24,
60_exceptions.md R110); that BUSY = 1 makes no difference is read from R33, which names only the response and OUT (log 18). -/
def Obligations.StatusAndCommandReadsAnyTime : Prop :=
  ∀ s : State,
    hostMove (.rd .busy) s = .next { s with got := s.got ++ [.field .busy s.busy.toNat] } ∧
    hostMove (.rd .respValid) s = .next { s with got := s.got ++ [.field .respValid s.respValid.toNat] } ∧
    hostMove (.rd .op) s = .next { s with got := s.got ++ [.field .op s.cmd.op.toNat] } ∧
    hostMove (.rd .din) s = .next { s with got := s.got ++ [.field .din s.cmd.din.toNat] } ∧
    hostMove (.rd .inLen) s = .next { s with got := s.got ++ [.field .inLen s.cmd.inLen] } ∧
    hostMove (.rd .start) s = .next { s with got := s.got ++ [.field .start 0] }

/-- While BUSY = 1 a read of a response field or of OUT shows nothing of the state (10_state.md R33, 20_memory.md R46,
70_reset_and_hazards.md R116): whatever the response fields and OUT hold, the host gets the same; and every field
and byte read is a fresh draw. That a drawn count OUT_LEN is cut to the bytes OUT has is the model's choice (log 13), as
is a read of no bytes at every i (log 9). -/
def Obligations.BusyReadsShowNothing : Prop :=
  (∀ (s : State) a r m e, s.busy = true → a.readsResponse = true →
    hostMove a { s with resp := r, outBuf := m, outEpoch := e } =
      mapNext (fun t => { t with resp := r, outBuf := m, outEpoch := e }) (hostMove a s)) ∧
  (∀ (s : State) f w, s.busy = true →
    (f, w) ∈ [(Field.status, 2), (.dout, 64), (.errMask, 8), (.errPos, s.cfg.lenW), (.outLen, s.cfg.lenW)] →
    hostMove (.rd f) s =
      .next { s with draws := s.draws + 1, got := s.got ++ [.field f (Config.freeBits w s.draws).toNat] }) ∧
  (∀ (s : State) i n, s.busy = true → s.cfg.OutRange i n →
    hostMove (.rdOut i (.lit n)) s =
      .next
        { s with
          draws := s.draws + n
          got := s.got ++ [.bytes i ((List.range n).map fun k => Config.freeBits 8 (s.draws + k))] }) ∧
  (∀ (s : State) i, s.busy = true →
    ∃ n, n = min (Config.freeBits s.cfg.lenW s.draws).toNat (s.cfg.maxOutLen - i) ∧
      hostMove (.rdOut i .outLen) s =
        .next
          { s with
            draws := s.draws + 1 + n
            got := s.got ++ [.bytes i ((List.range n).map fun k => Config.freeBits 8 (s.draws + 1 + k))] })

/-- The latches mean nothing while BUSY = 0 (10_state.md R32, 93_implementation_defined.md U10): with other values in them
the step gives the same outcome but for the latches. -/
def Obligations.LatchesUnusedWhileIdle : Prop :=
  ∀ (s : State) l, s.busy = false → ∃ l' : State → Command,
    step { s with latch := l } = mapNext (fun t => { t with latch := l' t }) (step s)

/-! ### The step -/

/-- The step runs the decoded command (30_encoding.md R67, 70_reset_and_hazards.md R122): with a command in flight and the
core the next to move, or nothing pending, or the host waiting, the step is `exec` of the command the latched OP decodes
to. That the core moves with nothing pending and at a host `wait` is the model's choice (log 3), which R67 and R122 do
not say. -/
def Obligations.StepRunsDecodedCommand : Prop :=
  ∀ (s : State) i, s.resp.status ≠ 3 → s.busy = true → decode s.latch.op = i →
    (s.pending = [] → step s = exec i s) ∧
    (∀ rest, s.pending = .core :: rest → step s = exec i { s with pending := rest }) ∧
    (∀ rest, s.pending = .host .wait :: rest → step s = exec i s)

/-- The step takes the next event and does it: a host move is `hostMove` of the state with the event taken off (a `wait`
once BUSY = 0), a reset is `resetNow` (70_reset_and_hazards.md R111), a START in the instant of a completion follows what
the command leaves (60_exceptions.md R96), and is a plain START when nothing is in flight. That one event is one step is
the model's choice (logs 3, 4), and so is what a reset keeps: the parameters (log 1), the later events and the host's
replies (log 22). -/
def Obligations.StepTakesNextEvent : Prop :=
  (∀ (s : State) a rest, s.resp.status ≠ 3 → s.pending = .host a :: rest → a ≠ .wait ∨ s.busy = false →
    step s = hostMove a { s with pending := rest }) ∧
  (∀ (s : State) rest, s.resp.status ≠ 3 → s.pending = .host .wait :: rest → s.busy = false →
    step s = .next { s with pending := rest }) ∧
  (∀ (s : State) rest, s.resp.status ≠ 3 → s.pending = .reset :: rest →
    step s = .next { s with pending := rest }.resetNow) ∧
  (∀ (s : State) rest t, s.resp.status ≠ 3 → s.pending = .coreStart :: rest → s.busy = true →
    exec (decode s.latch.op) { s with pending := rest } = .next t → step s = hostMove .start t) ∧
  (∀ (s : State) rest, s.resp.status ≠ 3 → s.pending = .coreStart :: rest → s.busy = false →
    step s = hostMove .start { s with pending := rest }) ∧
  (∀ s : State, s.resetNow.cfg = s.cfg ∧ s.resetNow.pending = s.pending ∧ s.resetNow.got = s.got)

/-- A placed command word is the next command run, from the OP, DIN and IN_LEN the host would have started (log 14, the
model's own form of a START). -/
def Obligations.PlacedWordRunsNext : Prop :=
  ∀ (s : State) nbits i, 2 ≤ nbits → s.resp.status ≠ 3 →
    decodeTableWord nbits (encode i).toNat = some i ∧
    step (s.withFetchWord nbits (encode i).toNat) =
      exec i { s with cmd := { s.cmd with op := encode i }, latch := { s.cmd with op := encode i }, busy := true, respValid := false }

/-- 60_exceptions.md R96: a START while BUSY = 1 is ignored; a reset during a command wins; completion in the instant of a
START comes first, and the START is then accepted. -/
def Obligations.SimultaneousEventsOrdered : Prop :=
  (∀ (s : State) rest, s.resp.status ≠ 3 → s.busy = true → s.pending = .host .start :: rest →
    step s = .next { s with pending := rest }) ∧
  (∀ (s : State) rest, s.resp.status ≠ 3 → s.busy = true → s.pending = .reset :: rest →
    ∃ t, step s = .next t ∧ t.busy = false ∧ t.respValid = false ∧ t.resp = Response.zero) ∧
  (∀ (s : State) rest t, s.resp.status ≠ 3 → s.busy = true → s.pending = .coreStart :: rest →
    exec (decode s.latch.op) { s with pending := rest } = .next t → s.cmd.inLen ≤ s.cfg.maxInLen →
    step s = .next { t with latch := s.cmd, busy := true, respValid := false })

/-- 60_exceptions.md R109: an idle block keeps every register. -/
def Obligations.IdleBlockKeepsState : Prop :=
  ∀ s : State, s.resp.status ≠ 3 → s.busy = false →
    (s.pending = [] → step s = .next s) ∧
    (∀ rest, s.pending = .core :: rest → step s = .next { s with pending := rest })

/-- Every accepted command completes unless a reset comes first (70_reset_and_hazards.md R122), as far as one schedule
shows it: with quiet events ahead, the block is idle with a response within one step more than there are events. The
bound, and that the core completes with nothing pending and at a host `wait`, are the model's choice (log 3). -/
def Obligations.AcceptedCommandCompletes : Prop :=
  ∀ s : State, s.Inv → s.busy = true → (∀ e ∈ s.pending, e.quiet = true) →
    ∃ k t, k ≤ s.pending.length + 1 ∧ Host.Core.run Sys2Proof.core k s = .next t ∧ t.Done

/-- The pseudo-commands of 30_encoding.md R69, run on an idle block in the schedule in which the core moves only while the
host waits: after three steps the command is in flight with its operand latched, and after five it is complete and the
script is used up. That schedule and its counts of steps are the model's choice (log 3), not R68's or R69's. -/
def Obligations.PseudoCommandsRun : Prop :=
  ∀ (s : State) (p : Pseudo), s.Inv → s.busy = false → s.cmd.inLen ≤ s.cfg.maxInLen → s.pending = eventsOf p.expand →
    (∀ n, p = .encStr n ∨ p = .decStr n → n ≤ s.cfg.maxInLen) →
    (∃ t, Host.Core.run Sys2Proof.core 3 s = .next t ∧ t.busy = true ∧
      (match p with
        | .encBlk x => t.latch.op = encode .encBlk ∧ t.latch.din = x.setWidth 64
        | .decBlk x => t.latch.op = encode .decBlk ∧ t.latch.din = x
        | .encStr n => t.latch.op = encode .encStr ∧ t.latch.inLen = n
        | .decStr n => t.latch.op = encode .decStr ∧ t.latch.inLen = n)) ∧
    (∃ u, Host.Core.run Sys2Proof.core 5 s = .next u ∧ u.Done ∧ u.pending = [])

/-! ### Reset -/

/-- 70_reset_and_hazards.md R111: reset at any time. The command in flight is abandoned with no response, every register
takes its reset value 0, no START is pending. -/
def Obligations.ResetClearsRegisters : Prop :=
  ∀ (s : State) rest, s.resp.status ≠ 3 → s.pending = .reset :: rest →
    ∃ t, step s = .next t ∧ t.cmd.op = 0 ∧ t.cmd.din = 0 ∧ t.cmd.inLen = 0 ∧ t.busy = false ∧ t.respValid = false ∧
      t.resp.status = 0 ∧ t.resp.dout = 0 ∧ t.resp.errMask = 0 ∧ t.resp.errPos = 0 ∧ t.resp.outLen = 0

/-- 70_reset_and_hazards.md R112: every byte of IN and OUT is a draw at power-on; a reset while BUSY = 0 writes no byte;
a reset while a stream command is in flight writes no byte of IN and leaves every byte of OUT a new draw. -/
def Obligations.BuffersAcrossReset : Prop :=
  (∀ c a, (State.powerOn c).inByte a = Config.freeIn a ∧ (State.powerOn c).outByte a = Config.freeOut 0 a) ∧
  (∀ s : State, s.busy = false → (∀ a, s.resetNow.inByte a = s.inByte a) ∧ s.SameOut s.resetNow) ∧
  (∀ s : State, s.busy = true → decode s.latch.op = .encStr ∨ decode s.latch.op = .decStr →
    (∀ a, s.resetNow.inByte a = s.inByte a) ∧ ∀ a, s.resetNow.outByte a = Config.freeOut (s.outEpoch + 1) a)

/-- A reset while a block command is in flight writes no byte of IN or OUT: the spec does not name this case, and the
model reads it from 20_memory.md R37 (log 6). -/
def Obligations.ResetDuringBlockKeepsBuffers : Prop :=
  ∀ s : State, s.busy = true → decode s.latch.op = .encBlk ∨ decode s.latch.op = .decBlk →
    (∀ a, s.resetNow.inByte a = s.inByte a) ∧ s.SameOut s.resetNow

/-- 70_reset_and_hazards.md R113: after reset the block is idle and the next START is accepted, for a block of any
sizes. -/
def Obligations.IdleAfterReset : Prop :=
  (∀ s : State, s.resetNow.busy = false ∧ s.resetNow.respValid = false ∧
    ∃ t, hostMove .start s.resetNow = .next t ∧ t.busy = true) ∧
  (∀ c, (State.powerOn c).busy = false ∧ (State.powerOn c).respValid = false ∧
    ∃ t, hostMove .start (State.powerOn c) = .next t ∧ t.busy = true)

/-! ### The whole machine -/

/-- The invariant holds after power-on of a block of any lawful sizes, and at the reset state of the interface. -/
def Obligations.ResetMeetsInvariant : Prop :=
  (∀ c : Config, c.Ok → (State.powerOn c).Inv) ∧ State.reset.Inv

/-- Every step keeps the invariant: buffers in canonical form and inside their capacity, length fields within LEN_W, the
handshake (10_state.md R23, R24), STATUS never 3 (60_exceptions.md R93), no output or stray position with an error
(R97). -/
def Obligations.StepKeepsInvariant : Prop :=
  ∀ s t : State, s.Inv → step s = .next t → t.Inv

/-- From a state of the invariant the step never stops while the host keeps its duties and names what exists
(60_exceptions.md R110): every command completes, whatever its data. That `rd OUT, i, OUT_LEN` while BUSY = 1 never stops
rests on the cut of its drawn count, the model's choice (log 13), and that a move of no bytes never stops on log 9. -/
def Obligations.DutifulStepNeverStops : Prop :=
  ∀ s : State, s.Inv → s.nextDutiful → ∃ t, step s = .next t
end

