-- ==== Sys2Proof/Laws/Datapath.lean ====
section
/-! SUPPORT. The flag computations, the tables and the sequencer: what each answers. -/

namespace Sys2Proof.Machine

/-- Bit k of the mask is set exactly when lane k fails. -/
theorem laneMask_getLsbD (ok : Lane → Bool) (k : Lane) : (laneMask ok).getLsbD k.val = !ok k := by
  match k with
  | 0 | 1 | 2 | 3 | 4 | 5 | 6 | 7 =>
    unfold laneMask
    repeat rw [BitVec.getLsbD_append]
    simp

/-- A 8-bit mask is zero exactly when no lane's bit is set. -/
theorem mask_eq_zero_iff (m : BitVec 8) : m = 0 ↔ ∀ k : Lane, m.getLsbD k.val = false := by
  constructor
  · rintro rfl k; simp
  · intro h
    exact BitVec.eq_of_getLsbD_eq fun i hi => by simpa using h ⟨i, hi⟩

theorem laneMask_eq_zero_iff (ok : Lane → Bool) : laneMask ok = 0 ↔ ∀ k, ok k = true := by
  rw [mask_eq_zero_iff]; simp only [laneMask_getLsbD, Bool.not_eq_false']

/-- The lowest set bit of a non-zero mask. -/
theorem lowestLane_spec {m : BitVec 8} (h : m ≠ 0) :
    ∃ k : Lane, lowestLane m = k.val ∧ m.getLsbD k.val = true ∧ ∀ j < k, m.getLsbD j.val = false := by
  unfold lowestLane
  cases hf : (List.range 8).find? (fun k => m.getLsbD k) with
  | none =>
    refine absurd ((mask_eq_zero_iff m).2 fun k => ?_) h
    simpa using List.find?_eq_none.1 hf k.val (by simp)
  | some p =>
    obtain ⟨hp, i, hi, rfl, hlow⟩ := List.find?_eq_some_iff_getElem.1 hf
    simp only [List.length_range] at hi
    refine ⟨⟨i, hi⟩, by simp, by simpa using hp, fun j hj => ?_⟩
    simpa using hlow j.val hj

/-- The lowest failing index, or none. -/
theorem firstBad_eq_none_iff {n : Nat} {ok : Nat → Bool} : firstBad n ok = none ↔ ∀ i < n, ok i = true := by
  simp [firstBad, List.find?_eq_none]

theorem firstBad_eq_some_iff {n p : Nat} {ok : Nat → Bool} :
    firstBad n ok = some p ↔ p < n ∧ ok p = false ∧ ∀ i < p, ok i = true := by
  unfold firstBad
  rw [List.find?_eq_some_iff_getElem]
  constructor
  · rintro ⟨hp, i, hi, rfl, hlow⟩
    simp only [List.length_range] at hi
    exact ⟨by simpa using hi, by simpa using hp, fun j hj => by simpa using hlow j (by simpa using hj)⟩
  · rintro ⟨hn, hp, hlow⟩
    exact ⟨by simpa using hp, p, by simpa using hn, by simp, fun j hj => by simpa using hlow j hj⟩

/-- Batches of any size list the same chunks in the same order. -/
theorem flatten_batches (par fuel j left : Nat) (h : left ≤ fuel) :
    (batches par fuel j left).flatten = List.range' j left := by
  induction fuel generalizing j left with
  | zero => simp [batches, Nat.le_zero.1 h]
  | succ fuel ih =>
    unfold batches
    split
    · simp [*]
    · have hn : min (max par 1) left ≤ left := Nat.min_le_right _ _
      simp only [List.flatten_cons]
      rw [ih _ _ (by omega)]
      have := List.range'_append (s := j) (m := min (max par 1) left) (n := left - min (max par 1) left) (step := 1)
      rw [Nat.one_mul, Nat.add_sub_cancel' hn] at this
      exact this

/-- The sequencer's output is the chunks' outputs in order, whatever PAR is (41_stream_ops.md R84). -/
theorem sequencer_eq (par count : Nat) (chunk : Nat → List Byte) :
    sequencer par count chunk = (List.range count).flatMap chunk := by
  unfold sequencer
  have flat : ∀ ls : List (List Nat), (ls.flatMap fun js => js.flatMap chunk) = ls.flatten.flatMap chunk := fun ls => by
    induction ls with
    | nil => rfl
    | cons l ls ih => simp [ih]
  rw [flat, flatten_batches _ _ _ _ (Nat.le_refl _), List.range_eq_range']

/-- Chunks of one length `c` concatenated: how long the whole is. -/
theorem length_sequencer {par count c : Nat} {chunk : Nat → List Byte} (h : ∀ j, (chunk j).length = c) :
    (sequencer par count chunk).length = count * c := by
  simp [sequencer_eq, List.length_flatMap, h]

/-- Byte i of chunk j stands at c*j + i. -/
theorem sequencer_getElem? {par count c : Nat} {chunk : Nat → List Byte} (h : ∀ j, (chunk j).length = c)
    {j i : Nat} (hj : j < count) (hi : i < c) :
    (sequencer par count chunk)[c * j + i]? = (chunk j)[i]? := by
  rw [sequencer_eq]
  induction count with
  | zero => omega
  | succ n ih =>
    have hl : ((List.range n).flatMap chunk).length = n * c := by simp [List.length_flatMap, h]
    rw [List.range_succ, List.flatMap_append]
    by_cases hjn : j < n
    · rw [List.getElem?_append_left, ih hjn]
      rw [hl]
      calc c * j + i < c * j + c := by omega
        _ = (j + 1) * c := by rw [Nat.add_mul, Nat.one_mul, Nat.mul_comm]
        _ ≤ n * c := Nat.mul_le_mul_right _ hjn
    · have hjn : j = n := by omega
      subst hjn
      rw [List.getElem?_append_right (by rw [hl, Nat.mul_comm]; omega), hl, Nat.mul_comm c j, Nat.add_sub_cancel_left]
      simp

@[simp] theorem length_encodeChunk (v : Chunk) : (encodeChunk v).length = 8 := by simp [encodeChunk]

@[simp] theorem length_decodeChunk (c : Lane → Byte) : (decodeChunk c).length = 5 := rfl

theorem encodeChunk_getElem? (v : Chunk) (k : Lane) : (encodeChunk v)[k.val]? = some (encodeLane v k) := by
  simp [encodeChunk]

@[simp] theorem length_encodeStream (par L : Nat) (inp : Nat → Byte) :
    (encodeStream par L inp).length = L / 5 * 8 := length_sequencer fun _ => length_encodeChunk _

@[simp] theorem length_decodeStream (par L : Nat) (inp : Nat → Byte) :
    (decodeStream par L inp).length = L / 8 * 5 := length_sequencer fun _ => length_decodeChunk _

/-- The stream functions depend on no byte at or past a length that is a whole number of chunks. -/
theorem encodeStream_congr {par par' L : Nat} {f g : Nat → Byte} (h5 : L % 5 = 0) (h : ∀ a < L, f a = g a) :
    encodeStream par L f = encodeStream par' L g := by
  unfold encodeStream
  rw [sequencer_eq, sequencer_eq]
  refine List.flatMap_congr fun j hj => ?_
  have hj : j < L / 5 := by simpa using hj
  rw [h, h, h, h, h] <;> omega

theorem decodeStream_congr {par par' L : Nat} {f g : Nat → Byte} (h8 : L % 8 = 0) (h : ∀ a < L, f a = g a) :
    decodeStream par L f = decodeStream par' L g := by
  unfold decodeStream
  rw [sequencer_eq, sequencer_eq]
  refine List.flatMap_congr fun j hj => ?_
  have hj : j < L / 8 := by simpa using hj
  congr 1
  funext k
  exact h _ (by have := k.isLt; omega)

end Sys2Proof.Machine
end

