-- ==== Sys2Proof/Laws/Memory.lean ====
section
/-! SUPPORT. The buffers: read after write, and every write keeps the canonical form and the capacity. -/

namespace Sys2Proof.Machine

@[simp] theorem get?_nil (a : Nat) : Memory.get? [] a = none := rfl

/-- Read after one write. -/
theorem get?_set (m : Memory) (i a : Nat) (v : Byte) :
    Memory.get? (Memory.set m i v) a = if a = i then some v else Memory.get? m a := by
  induction m with
  | nil => by_cases e : i = a <;> simp [Memory.set, Memory.get?, e, eq_comm]
  | cons c m ih =>
    obtain ⟨k, b⟩ := c
    unfold Memory.set
    split
    · simp only [Memory.get?]; grind
    · split
      · simp only [Memory.get?]; grind
      · simp only [Memory.get?, ih]; grind

theorem mem_set {m : Memory} {i : Nat} {v : Byte} {c : Host.Cell} (h : c ∈ Memory.set m i v) :
    c = (i, v) ∨ c ∈ m := by
  induction m with
  | nil => exact .inl (by simpa [Memory.set] using h)
  | cons d m ih =>
    obtain ⟨k, b⟩ := d
    unfold Memory.set at h
    split at h
    · simpa using h
    · split at h
      · rcases List.mem_cons.1 h with h | h
        · exact .inl h
        · exact .inr (List.mem_cons_of_mem _ h)
      · rcases List.mem_cons.1 h with h | h
        · exact .inr (h ▸ List.mem_cons_self)
        · exact (ih h).imp_right (List.mem_cons_of_mem _)

/-- A write keeps the canonical form. -/
theorem wf_set {m : Memory} (i : Nat) (v : Byte) (h : m.wf) : Memory.wf (Memory.set m i v) := by
  induction m with
  | nil => simp [Memory.set, Memory.wf]
  | cons d m ih =>
    obtain ⟨k, b⟩ := d
    obtain ⟨hk, hm⟩ := List.pairwise_cons.1 h
    unfold Memory.set
    split
    · rename_i hlt
      refine List.pairwise_cons.2 ⟨fun a ha => ?_, h⟩
      rcases List.mem_cons.1 ha with rfl | ha
      · exact hlt
      · exact Nat.lt_trans hlt (hk a ha)
    · split
      · rename_i he
        exact List.pairwise_cons.2 ⟨fun a ha => he ▸ hk a ha, hm⟩
      · rename_i hlt hne
        refine List.pairwise_cons.2 ⟨fun a ha => ?_, ih hm⟩
        obtain ⟨c, hc, rfl⟩ := List.mem_map.1 ha
        rcases mem_set hc with rfl | hc
        · show k < i; omega
        · exact hk _ (List.mem_map_of_mem hc)

/-- A write below the capacity keeps every listed index below it. -/
theorem below_set {m : Memory} {n i : Nat} (v : Byte) (h : m.below n) (hi : i < n) :
    Memory.below (Memory.set m i v) n := fun c hc => by
  rcases mem_set hc with rfl | hc
  · exact hi
  · exact h c hc

theorem wf_setMany {m : Memory} (i : Nat) (bs : List Byte) (h : m.wf) : Memory.wf (Memory.setMany m i bs) := by
  induction bs generalizing m i with
  | nil => exact h
  | cons b bs ih => exact ih _ (wf_set _ _ h)

/-- In range says that every one of the n indices exists. -/
theorem inRange_iff {c : Config} {i n : Nat} : c.InRange i n ↔ ∀ k < n, i + k < c.maxInLen := by
  constructor
  · rintro (h | h) k hk <;> omega
  · intro h
    rcases n with - | n
    · exact .inl rfl
    · exact .inr (h n (by omega))

theorem outRange_iff {c : Config} {i n : Nat} : c.OutRange i n ↔ ∀ k < n, i + k < c.maxOutLen := by
  constructor
  · rintro (h | h) k hk <;> omega
  · intro h
    rcases n with - | n
    · exact .inl rfl
    · exact .inr (h n (by omega))

/-- A write of several bytes that exist, or of none, keeps every listed index below the capacity. -/
theorem below_setMany {m : Memory} {n i : Nat} {bs : List Byte} (h : m.below n)
    (hi : bs.length = 0 ∨ i + bs.length ≤ n) : Memory.below (Memory.setMany m i bs) n := by
  induction bs generalizing m i with
  | nil => exact h
  | cons b bs ih =>
    simp only [List.length_cons] at hi
    exact ih (below_set _ h (by omega)) (by omega)

/-- Read after a write of several bytes: the byte written there, or what was there before. -/
theorem get?_setMany (m : Memory) (i a : Nat) (bs : List Byte) :
    Memory.get? (Memory.setMany m i bs) a =
      if h : i ≤ a ∧ a - i < bs.length then some (bs[a - i]'h.2) else Memory.get? m a := by
  induction bs generalizing m i with
  | nil => simp [Memory.setMany]
  | cons b bs ih =>
    rw [Memory.setMany, ih, get?_set]
    by_cases e : a = i
    · subst e
      simp
    · by_cases g : i ≤ a
      · have ha : a - i = (a - (i + 1)) + 1 := by omega
        by_cases l : a - (i + 1) < bs.length
        · have g' : i + 1 ≤ a := by omega
          have l' : a - i < (b :: bs).length := by simp; omega
          rw [dif_pos ⟨g', l⟩, dif_pos ⟨g, l'⟩]
          simp [ha]
        · have l' : ¬ a - i < (b :: bs).length := by simp; omega
          rw [dif_neg (fun x => l x.2), dif_neg (fun x => l' x.2), if_neg e]
      · rw [dif_neg (by omega), dif_neg (by omega), if_neg e]

end Sys2Proof.Machine
end

