-- ==== Sys2Proof/Laws/State.lean ====
section
/-! SUPPORT. One lemma per field per update of the state: what each shared update writes and what it leaves. -/

namespace Sys2Proof.Machine

variable (s : State)

section accept
@[simp] theorem accept_cfg : s.accept.cfg = s.cfg := rfl
@[simp] theorem accept_cmd : s.accept.cmd = s.cmd := rfl
@[simp] theorem accept_busy : s.accept.busy = true := rfl
@[simp] theorem accept_respValid : s.accept.respValid = false := rfl
@[simp] theorem accept_resp : s.accept.resp = s.resp := rfl
@[simp] theorem accept_latch : s.accept.latch = s.cmd := rfl
@[simp] theorem accept_inBuf : s.accept.inBuf = s.inBuf := rfl
@[simp] theorem accept_outBuf : s.accept.outBuf = s.outBuf := rfl
@[simp] theorem accept_outEpoch : s.accept.outEpoch = s.outEpoch := rfl
@[simp] theorem accept_draws : s.accept.draws = s.draws := rfl
@[simp] theorem accept_pending : s.accept.pending = s.pending := rfl
@[simp] theorem accept_got : s.accept.got = s.got := rfl
end accept

section respond
variable (r : Response)
@[simp] theorem respond_cfg : (s.respond r).cfg = s.cfg := rfl
@[simp] theorem respond_cmd : (s.respond r).cmd = s.cmd := rfl
@[simp] theorem respond_busy : (s.respond r).busy = false := rfl
@[simp] theorem respond_respValid : (s.respond r).respValid = true := rfl
@[simp] theorem respond_status : (s.respond r).resp.status = r.status := rfl
@[simp] theorem respond_dout : (s.respond r).resp.dout = r.dout := rfl
@[simp] theorem respond_errMask : (s.respond r).resp.errMask = r.errMask := rfl
@[simp] theorem respond_errPos : (s.respond r).resp.errPos = toLen s.cfg r.errPos := rfl
@[simp] theorem respond_outLen : (s.respond r).resp.outLen = toLen s.cfg r.outLen := rfl
@[simp] theorem respond_latch_inLen : (s.respond r).latch.inLen = freeLen s.cfg (s.draws + 2) := rfl
@[simp] theorem respond_inBuf : (s.respond r).inBuf = s.inBuf := rfl
@[simp] theorem respond_outBuf : (s.respond r).outBuf = s.outBuf := rfl
@[simp] theorem respond_outEpoch : (s.respond r).outEpoch = s.outEpoch := rfl
@[simp] theorem respond_draws : (s.respond r).draws = s.draws + 3 := rfl
@[simp] theorem respond_pending : (s.respond r).pending = s.pending := rfl
@[simp] theorem respond_got : (s.respond r).got = s.got := rfl
@[simp] theorem respond_inByte (a : Nat) : (s.respond r).inByte a = s.inByte a := rfl
@[simp] theorem respond_outByte (a : Nat) : (s.respond r).outByte a = s.outByte a := rfl
end respond

section memWriteOut
variable (i : Nat) (bs : List Byte)
@[simp] theorem memWriteOut_cfg : (s.memWriteOut i bs).cfg = s.cfg := rfl
@[simp] theorem memWriteOut_cmd : (s.memWriteOut i bs).cmd = s.cmd := rfl
@[simp] theorem memWriteOut_busy : (s.memWriteOut i bs).busy = s.busy := rfl
@[simp] theorem memWriteOut_respValid : (s.memWriteOut i bs).respValid = s.respValid := rfl
@[simp] theorem memWriteOut_resp : (s.memWriteOut i bs).resp = s.resp := rfl
@[simp] theorem memWriteOut_latch : (s.memWriteOut i bs).latch = s.latch := rfl
@[simp] theorem memWriteOut_inBuf : (s.memWriteOut i bs).inBuf = s.inBuf := rfl
@[simp] theorem memWriteOut_outBuf : (s.memWriteOut i bs).outBuf = Memory.setMany s.outBuf i bs := rfl
@[simp] theorem memWriteOut_outEpoch : (s.memWriteOut i bs).outEpoch = s.outEpoch := rfl
@[simp] theorem memWriteOut_draws : (s.memWriteOut i bs).draws = s.draws := rfl
@[simp] theorem memWriteOut_pending : (s.memWriteOut i bs).pending = s.pending := rfl
@[simp] theorem memWriteOut_got : (s.memWriteOut i bs).got = s.got := rfl
@[simp] theorem memWriteOut_inByte (a : Nat) : (s.memWriteOut i bs).inByte a = s.inByte a := rfl
end memWriteOut

section memWriteIn
variable (i : Nat) (bs : List Byte)
@[simp] theorem memWriteIn_cfg : (s.memWriteIn i bs).cfg = s.cfg := rfl
@[simp] theorem memWriteIn_cmd : (s.memWriteIn i bs).cmd = s.cmd := rfl
@[simp] theorem memWriteIn_busy : (s.memWriteIn i bs).busy = s.busy := rfl
@[simp] theorem memWriteIn_respValid : (s.memWriteIn i bs).respValid = s.respValid := rfl
@[simp] theorem memWriteIn_resp : (s.memWriteIn i bs).resp = s.resp := rfl
@[simp] theorem memWriteIn_latch : (s.memWriteIn i bs).latch = s.latch := rfl
@[simp] theorem memWriteIn_inBuf : (s.memWriteIn i bs).inBuf = Memory.setMany s.inBuf i bs := rfl
@[simp] theorem memWriteIn_outBuf : (s.memWriteIn i bs).outBuf = s.outBuf := rfl
@[simp] theorem memWriteIn_outEpoch : (s.memWriteIn i bs).outEpoch = s.outEpoch := rfl
@[simp] theorem memWriteIn_draws : (s.memWriteIn i bs).draws = s.draws := rfl
@[simp] theorem memWriteIn_pending : (s.memWriteIn i bs).pending = s.pending := rfl
@[simp] theorem memWriteIn_got : (s.memWriteIn i bs).got = s.got := rfl
@[simp] theorem memWriteIn_outByte (a : Nat) : (s.memWriteIn i bs).outByte a = s.outByte a := rfl
end memWriteIn

section forgetOut
@[simp] theorem forgetOut_cfg : s.forgetOut.cfg = s.cfg := rfl
@[simp] theorem forgetOut_cmd : s.forgetOut.cmd = s.cmd := rfl
@[simp] theorem forgetOut_busy : s.forgetOut.busy = s.busy := rfl
@[simp] theorem forgetOut_respValid : s.forgetOut.respValid = s.respValid := rfl
@[simp] theorem forgetOut_resp : s.forgetOut.resp = s.resp := rfl
@[simp] theorem forgetOut_latch : s.forgetOut.latch = s.latch := rfl
@[simp] theorem forgetOut_inBuf : s.forgetOut.inBuf = s.inBuf := rfl
@[simp] theorem forgetOut_outBuf : s.forgetOut.outBuf = [] := rfl
@[simp] theorem forgetOut_outEpoch : s.forgetOut.outEpoch = s.outEpoch + 1 := rfl
@[simp] theorem forgetOut_draws : s.forgetOut.draws = s.draws := rfl
@[simp] theorem forgetOut_pending : s.forgetOut.pending = s.pending := rfl
@[simp] theorem forgetOut_got : s.forgetOut.got = s.got := rfl
@[simp] theorem forgetOut_outByte (a : Nat) : s.forgetOut.outByte a = Config.freeOut (s.outEpoch + 1) a := rfl
end forgetOut

section resetNow
@[simp] theorem resetNow_cfg : s.resetNow.cfg = s.cfg := by unfold State.resetNow; split <;> rfl
@[simp] theorem resetNow_cmd : s.resetNow.cmd = Command.zero := rfl
@[simp] theorem resetNow_busy : s.resetNow.busy = false := rfl
@[simp] theorem resetNow_respValid : s.resetNow.respValid = false := rfl
@[simp] theorem resetNow_resp : s.resetNow.resp = Response.zero := rfl
@[simp] theorem resetNow_latch_inLen : s.resetNow.latch.inLen = freeLen s.cfg (s.draws + 2) := by
  unfold State.resetNow; split <;> rfl
@[simp] theorem resetNow_inBuf : s.resetNow.inBuf = s.inBuf := by unfold State.resetNow; split <;> rfl
@[simp] theorem resetNow_pending : s.resetNow.pending = s.pending := by unfold State.resetNow; split <;> rfl
@[simp] theorem resetNow_got : s.resetNow.got = s.got := by unfold State.resetNow; split <;> rfl
@[simp] theorem resetNow_draws : s.resetNow.draws = s.draws + 3 := by unfold State.resetNow; split <;> rfl
theorem resetNow_outBuf : s.resetNow.outBuf = if s.streamInFlight then [] else s.outBuf := by
  unfold State.resetNow; split <;> rfl
theorem resetNow_outEpoch : s.resetNow.outEpoch = if s.streamInFlight then s.outEpoch + 1 else s.outEpoch := by
  unfold State.resetNow; split <;> rfl
end resetNow

section reads
variable (f : Field) (v w : Nat)
@[simp] theorem reply_got : (s.reply f v).got = s.got ++ [.field f v] := rfl
@[simp] theorem reply_eq : s.reply f v = { s with got := s.got ++ [.field f v] } := rfl

/-- A read changes only what the host has got and the count of draws. -/
theorem readResponse_eq :
    ∃ g d, s.readResponse w f v = { s with got := g, draws := d } := by
  unfold State.readResponse State.drawField State.reply
  split <;> exact ⟨_, _, rfl⟩

theorem readField_eq : ∃ g d, s.readField f = { s with got := g, draws := d } := by
  cases f <;> first | exact ⟨_, _, rfl⟩ | exact readResponse_eq s _ _ _
end reads

end Sys2Proof.Machine
end

