-- ==== Sys2Proof/Laws/Exec.lean ====
section
/-! SUPPORT. What each command can do, said once: one lemma per meaning and one for all four. -/

namespace Sys2Proof.Machine

/-- OUT after a MemWrite: the byte written there, or what was there before. -/
theorem outByte_memWriteOut (s : State) (i a : Nat) (bs : List Byte) :
    (s.memWriteOut i bs).outByte a = if h : i ≤ a ∧ a - i < bs.length then bs[a - i]'h.2 else s.outByte a := by
  unfold State.outByte
  rw [memWriteOut_outBuf, memWriteOut_outEpoch, get?_setMany]
  split <;> rfl

/-- IN after a host write. -/
theorem inByte_memWriteIn (s : State) (i a : Nat) (bs : List Byte) :
    (s.memWriteIn i bs).inByte a = if h : i ≤ a ∧ a - i < bs.length then bs[a - i]'h.2 else s.inByte a := by
  unfold State.inByte
  rw [memWriteIn_inBuf, get?_setMany]
  split <;> rfl

@[simp] theorem memWriteOut_nil (s : State) (i : Nat) : s.memWriteOut i [] = s := rfl

@[simp] theorem toLen_zero (c : Config) : toLen c 0 = 0 := Nat.zero_mod _

theorem toLen_of_fits {c : Config} {n : Nat} (h : c.FitsLen n) : toLen c n = n := Nat.mod_eq_of_lt h

theorem toLen_lt (c : Config) (n : Nat) : toLen c n < 2 ^ c.lenW := Nat.mod_lt _ (Nat.two_pow_pos _)

theorem toLen_le (c : Config) (n : Nat) : toLen c n ≤ n := Nat.mod_le _ _

theorem freeLen_lt (c : Config) (n : Nat) : freeLen c n < 2 ^ c.lenW := BitVec.isLt _

/-- The stream commit: it succeeds exactly when the output fits OUT. -/
theorem commitStream_next {s t : State} {bs : List Byte} :
    s.commitStream bs = .next t ↔
      s.cfg.OutRange 0 bs.length ∧ t = (s.memWriteOut 0 bs).commit 0 bs.length := by
  unfold State.commitStream
  split <;> rename_i ho
  · exact ⟨fun h => ⟨ho, (Host.Outcome.next.inj h).symm⟩, fun h => by rw [h.2]⟩
  · exact ⟨(nomatch ·), fun h => absurd h.1 ho⟩

theorem commitStream_absent {s : State} {bs : List Byte} (h : ¬ s.cfg.OutRange 0 bs.length) :
    s.commitStream bs = .fault .outIndexAbsent := if_neg h

theorem commitStream_of_fits {s : State} {bs : List Byte} (h : bs.length ≤ s.cfg.maxOutLen) :
    s.commitStream bs = .next ((s.memWriteOut 0 bs).commit 0 bs.length) :=
  commitStream_next.2 ⟨.inr (by omega), rfl⟩

/-- DEC_BLK, the two ways it completes. -/
theorem execDecBlk_eq (s : State) :
    execDecBlk s =
      .next (if laneMask (fun k => (rmap (symbol s.latch.din k)).valid) ≠ 0 then
          s.raise .decBlk (.invalidCharacter (laneMask fun k => (rmap (symbol s.latch.din k)).valid)
            (lowestLane (laneMask fun k => (rmap (symbol s.latch.din k)).valid)))
        else s.commit (zextChunk (groupsTo40 fun k => (rmap (symbol s.latch.din k)).idx)) 0) := by
  unfold execDecBlk
  simp only []
  split <;> rfl

/-- ENC_STR, case by case. -/
theorem execEncStr_badLength {s : State} (h : s.latch.inLen % 5 ≠ 0) :
    execEncStr s = .next (s.raise .encStr .invalidLength) := if_pos h

theorem execEncStr_absent {s : State} (h : s.latch.inLen % 5 = 0) (hr : ¬ s.cfg.InRange 0 s.latch.inLen) :
    execEncStr s = .fault .inIndexAbsent := (if_neg (not_not.2 h)).trans (if_pos hr)

theorem execEncStr_stream {s : State} (h : s.latch.inLen % 5 = 0) (hr : s.cfg.InRange 0 s.latch.inLen) :
    execEncStr s = s.commitStream (encodeStream s.cfg.par s.latch.inLen s.inByte) :=
  (if_neg (not_not.2 h)).trans (if_neg (not_not.2 hr))

/-- DEC_STR, case by case. -/
theorem execDecStr_badLength {s : State} (h : s.latch.inLen % 8 ≠ 0) :
    execDecStr s = .next (s.raise .decStr .invalidLength) := if_pos h

theorem execDecStr_absent {s : State} (h : s.latch.inLen % 8 = 0) (hr : ¬ s.cfg.InRange 0 s.latch.inLen) :
    execDecStr s = .fault .inIndexAbsent := (if_neg (not_not.2 h)).trans (if_pos hr)

theorem execDecStr_badByte {s : State} {p : Nat} (h : s.latch.inLen % 8 = 0) (hr : s.cfg.InRange 0 s.latch.inLen)
    (hp : firstBad s.latch.inLen (fun i => (rmap (s.inByte i)).valid) = some p) :
    execDecStr s = .next (s.raise .decStr (.invalidCharacter 0 p)) := by
  refine ((if_neg (not_not.2 h)).trans (if_neg (not_not.2 hr))).trans ?_
  unfold State.streamLen
  rw [hp]

theorem execDecStr_stream {s : State} (h : s.latch.inLen % 8 = 0) (hr : s.cfg.InRange 0 s.latch.inLen)
    (hp : firstBad s.latch.inLen (fun i => (rmap (s.inByte i)).valid) = none) :
    execDecStr s = s.commitStream (decodeStream s.cfg.par s.latch.inLen s.inByte) := by
  refine ((if_neg (not_not.2 h)).trans (if_neg (not_not.2 hr))).trans ?_
  unfold State.streamLen
  rw [hp]

/-- ENC_STR, the ways it answers a next state. -/
theorem execEncStr_next {s t : State} (h : execEncStr s = .next t) :
    (s.latch.inLen % 5 ≠ 0 ∧ t = s.raise .encStr .invalidLength) ∨
    (s.latch.inLen % 5 = 0 ∧ s.cfg.InRange 0 s.latch.inLen ∧
      s.cfg.OutRange 0 (s.latch.inLen / 5 * 8) ∧
      t = (s.memWriteOut 0 (encodeStream s.cfg.par s.latch.inLen s.inByte)).commit 0 (s.latch.inLen / 5 * 8)) := by
  unfold execEncStr State.streamLen at h
  dsimp only at h
  split at h
  · exact .inl ⟨‹_›, by simpa using h.symm⟩
  · split at h
    · cases h
    · obtain ⟨ho, rfl⟩ := commitStream_next.1 h
      rw [length_encodeStream] at ho ⊢
      exact .inr ⟨by omega, not_not.1 ‹_›, ho, rfl⟩

/-- DEC_STR, the ways it answers a next state. -/
theorem execDecStr_next {s t : State} (h : execDecStr s = .next t) :
    (s.latch.inLen % 8 ≠ 0 ∧ t = s.raise .decStr .invalidLength) ∨
    (∃ p, s.latch.inLen % 8 = 0 ∧ s.cfg.InRange 0 s.latch.inLen ∧
      firstBad s.latch.inLen (fun i => (rmap (s.inByte i)).valid) = some p ∧
      t = s.raise .decStr (.invalidCharacter 0 p)) ∨
    (s.latch.inLen % 8 = 0 ∧ s.cfg.InRange 0 s.latch.inLen ∧
      firstBad s.latch.inLen (fun i => (rmap (s.inByte i)).valid) = none ∧
      s.cfg.OutRange 0 (s.latch.inLen / 8 * 5) ∧
      t = (s.memWriteOut 0 (decodeStream s.cfg.par s.latch.inLen s.inByte)).commit 0 (s.latch.inLen / 8 * 5)) := by
  unfold execDecStr State.streamLen at h
  dsimp only at h
  split at h
  · exact .inl ⟨‹_›, by simpa using h.symm⟩
  · split at h
    · cases h
    · split at h
      · rename_i p hp
        exact .inr (.inl ⟨p, by omega, not_not.1 ‹_›, hp, by simpa using h.symm⟩)
      · rename_i hp
        obtain ⟨ho, rfl⟩ := commitStream_next.1 h
        rw [length_decodeStream] at ho ⊢
        exact .inr (.inr ⟨by omega, not_not.1 ‹_›, hp, ho, rfl⟩)

/-- Everything any command can do when it answers a next state: it writes bytes at the start of OUT and then responds.
An error writes no byte and has no output; STATUS is never 3; only STATUS 2 carries a position or a mask. -/
theorem exec_next {i : Instr} {s t : State} (h : exec i s = .next t) :
    ∃ (r : Response) (bs : List Byte), t = (s.memWriteOut 0 bs).respond r ∧ r.outLen = bs.length ∧
      s.cfg.OutRange 0 bs.length ∧ r.status ≠ 3 ∧ (r.status ≠ 0 → r.dout = 0 ∧ bs = []) ∧
      (r.status ≠ 2 → r.errPos = 0 ∧ r.errMask = 0) := by
  cases i with
  | encBlk =>
    simp only [exec, execEncBlk, Host.Outcome.next.injEq] at h
    subst h
    exact ⟨_, [], rfl, rfl, by simp [Config.OutRange], by simp, by simp, by simp⟩
  | decBlk =>
    rw [exec, execDecBlk_eq, Host.Outcome.next.injEq] at h
    subst h
    split
    · exact ⟨_, [], rfl, rfl, by simp [Config.OutRange], by simp [CmdError.code], by simp, by simp [CmdError.code]⟩
    · exact ⟨_, [], rfl, rfl, by simp [Config.OutRange], by simp, by simp, by simp⟩
  | encStr =>
    obtain ⟨-, rfl⟩ | ⟨-, -, ho, rfl⟩ := execEncStr_next h
    · exact ⟨_, [], rfl, rfl, by simp [Config.OutRange], by simp [CmdError.code], by simp,
        by simp [CmdError.pos, CmdError.mask]⟩
    · exact ⟨_, _, rfl, by simp, by simpa using ho, by simp, by simp, by simp⟩
  | decStr =>
    obtain ⟨-, rfl⟩ | ⟨p, -, -, -, rfl⟩ | ⟨-, -, -, ho, rfl⟩ := execDecStr_next h
    · exact ⟨_, [], rfl, rfl, by simp [Config.OutRange], by simp [CmdError.code], by simp,
        by simp [CmdError.pos, CmdError.mask]⟩
    · exact ⟨_, [], rfl, rfl, by simp [Config.OutRange], by simp [CmdError.code], by simp, by simp [CmdError.code]⟩
    · exact ⟨_, _, rfl, by simp, by simpa using ho, by simp, by simp, by simp⟩

/-- What a stream needs for its output to fit: R7's constraint on MAX_OUT_LEN. -/
theorem encode_fits {c : Config} {L : Nat} (hc : c.Ok) (hL : L ≤ c.maxInLen) : L / 5 * 8 ≤ c.maxOutLen := by
  have := Nat.div_le_div_right (c := 5) hL
  have := hc.1
  omega

theorem decode_fits {c : Config} {L : Nat} (hc : c.Ok) (hL : L ≤ c.maxInLen) : L / 8 * 5 ≤ c.maxOutLen := by
  have := encode_fits hc hL
  omega

/-- With lawful sizes and the host's length duty, every command answers a next state. -/
theorem exec_completes {i : Instr} {s : State} (hc : s.cfg.Ok) (hL : s.latch.inLen ≤ s.cfg.maxInLen) :
    ∃ t, exec i s = .next t := by
  have hin : s.cfg.InRange 0 s.latch.inLen := .inr (by omega)
  cases i with
  | encBlk => exact ⟨_, rfl⟩
  | decBlk => exact ⟨_, execDecBlk_eq s⟩
  | encStr =>
    unfold exec execEncStr State.streamLen
    dsimp only
    split
    · exact ⟨_, rfl⟩
    · exact ⟨_, commitStream_of_fits (by simpa using encode_fits hc hL)⟩
  | decStr =>
    unfold exec execDecStr State.streamLen
    dsimp only
    split
    · exact ⟨_, rfl⟩
    · split
      · exact ⟨_, rfl⟩
      · exact ⟨_, commitStream_of_fits (by simpa using decode_fits hc hL)⟩

end Sys2Proof.Machine
end

