-- ==== Sys2Proof/Laws/PerInstr.lean ====
section
/-! SUPPORT. The per-instruction family `Subfields`: the two subfields of each command's OP value (30_encoding.md R57). -/

namespace Sys2Proof.Laws.Subfields

/-- DIR is 1 exactly for the decoders and GRAN is 1 exactly for the stream commands. -/
def Statement (i : Instr) : Prop :=
  i.WellFormed ∧ (dir (encode i) = true ↔ i = .decBlk ∨ i = .decStr) ∧ (gran (encode i) = true ↔ i = .encStr ∨ i = .decStr)

theorem encBlk : Statement .encBlk := by unfold Statement; decide
theorem decBlk : Statement .decBlk := by unfold Statement; decide
theorem encStr : Statement .encStr := by unfold Statement; decide
theorem decStr : Statement .decStr := by unfold Statement; decide

end Sys2Proof.Laws.Subfields
end

