-- ==== Sys2Proof/Laws/Step.lean ====
section
/-! SUPPORT. What the host's moves, the core's move and one step can do, said once. -/

namespace Sys2Proof.Machine

/-- START, the two ways it answers a next state. -/
theorem pulseStart_next {s t : State} (h : s.pulseStart = .next t) :
    (s.busy = true ∧ t = s) ∨ (s.busy = false ∧ s.cmd.inLen ≤ s.cfg.maxInLen ∧ t = s.accept) := by
  unfold State.pulseStart at h
  split at h
  · exact .inl ⟨‹_›, by simpa using h.symm⟩
  · split at h
    · cases h
    · exact .inr ⟨by simpa using ‹¬s.busy = true›, by omega, by simpa using h.symm⟩

/-- A read of OUT changes only what the host has got and the count of draws. -/
theorem readOut_next {s t : State} {i n : Nat} (h : s.readOut i n = .next t) :
    s.cfg.OutRange i n ∧ ∃ g d, t = { s with got := g, draws := d } := by
  unfold State.readOut at h
  split at h
  · cases h
  · refine ⟨not_not.1 ‹_›, ?_⟩
    split at h <;> exact ⟨_, _, (Host.Outcome.next.inj h).symm⟩

/-- The host's write to IN, the one way it answers a next state. -/
theorem writeIn_next {i : Nat} {bs : List Byte} {s t : State} (h : hostMove (.writeIn i bs) s = .next t) :
    (s.busy = false ∨ bs = []) ∧ s.cfg.InRange i bs.length ∧ t = s.memWriteIn i bs := by
  simp only [hostMove] at h
  split at h
  · cases h
  · split at h
    · exact ⟨by simpa [or_iff_not_imp_left] using ‹¬(s.busy = true ∧ bs ≠ [])›, ‹_›, (Host.Outcome.next.inj h).symm⟩
    · cases h

/-- Everything a host move other than START can do: it writes IN (no byte of it while BUSY = 1), or a command register, or
is a read. -/
theorem hostMove_next {a : Action} {s t : State} (ha : a ≠ .start) (h : hostMove a s = .next t) :
    (∃ i bs, (s.busy = false ∨ bs = []) ∧ s.cfg.InRange i bs.length ∧ t = s.memWriteIn i bs) ∨
    (∃ c, (s.cfg.FitsLen s.cmd.inLen → s.cfg.FitsLen c.inLen) ∧ t = { s with cmd := c }) ∨
    (∃ g d, t = { s with got := g, draws := d }) := by
  cases a with
  | writeIn i bs => exact .inl ⟨i, bs, writeIn_next h⟩
  | wrOp v => exact .inr (.inl ⟨{ s.cmd with op := v }, id, (Host.Outcome.next.inj h).symm⟩)
  | wrDin v => exact .inr (.inl ⟨{ s.cmd with din := v }, id, (Host.Outcome.next.inj h).symm⟩)
  | wrInLen v =>
    simp only [hostMove] at h
    split at h
    · exact .inr (.inl ⟨_, fun _ => ‹_›, (Host.Outcome.next.inj h).symm⟩)
    · cases h
  | start => exact absurd rfl ha
  | wait => exact .inr (.inr ⟨_, _, (Host.Outcome.next.inj h).symm⟩)
  | rd f =>
    obtain ⟨g, d, e⟩ := readField_eq s f
    exact .inr (.inr ⟨g, d, (Host.Outcome.next.inj h).symm.trans e⟩)
  | rdOut i n =>
    cases n with
    | lit n => exact .inr (.inr (readOut_next h).2)
    | outLen =>
      simp only [hostMove] at h
      split at h
      · obtain ⟨g, d, rfl⟩ := (readOut_next h).2
        exact .inr (.inr ⟨g, d, rfl⟩)
      · exact .inr (.inr (readOut_next h).2)

/-- The core's move: the command in flight runs, or the block idles. -/
theorem coreMove_next {s t : State} (h : coreMove s = .next t) :
    (s.busy = true ∧ exec (decode s.latch.op) s = .next t) ∨ (s.busy = false ∧ t = s) := by
  unfold coreMove State.runCommand at h
  split at h
  · exact .inl ⟨‹_›, h⟩
  · exact .inr ⟨by simpa using ‹¬s.busy = true›, by simpa using h.symm⟩

theorem andThen_next {o : Host.Outcome State Fault Refusal} {f : State → Host.Outcome State Fault Refusal} {t : State}
    (h : andThen o f = .next t) : ∃ u, o = .next u ∧ f u = .next t := by
  cases o with
  | next u => exact ⟨u, rfl, h⟩
  | fault r => cases h
  | refused r => cases h

/-- Everything one event can do when it answers a next state: the core's move, a START after it, a host move, or
reset. -/
theorem takeEvent_next {e : Event} {s t : State} (h : takeEvent e s = .next t) :
    (∃ p, coreMove { s with pending := p } = .next t) ∨
    (∃ u, coreMove s = .next u ∧ u.pulseStart = .next t) ∨
    (∃ a, hostMove a s = .next t) ∨ t = s.resetNow := by
  cases e with
  | host a =>
    cases a with
    | wait =>
      simp only [takeEvent] at h
      split at h
      · refine .inl ⟨.host .wait :: s.pending, ?_⟩
        unfold coreMove
        rw [if_pos (by assumption)]
        exact h
      · exact .inr (.inr (.inl ⟨.wait, h⟩))
    | writeIn i bs => exact .inr (.inr (.inl ⟨.writeIn i bs, h⟩))
    | wrOp v => exact .inr (.inr (.inl ⟨.wrOp v, h⟩))
    | wrDin v => exact .inr (.inr (.inl ⟨.wrDin v, h⟩))
    | wrInLen v => exact .inr (.inr (.inl ⟨.wrInLen v, h⟩))
    | start => exact .inr (.inr (.inl ⟨.start, h⟩))
    | rd f => exact .inr (.inr (.inl ⟨.rd f, h⟩))
    | rdOut i n => exact .inr (.inr (.inl ⟨.rdOut i n, h⟩))
  | core => exact .inl ⟨s.pending, h⟩
  | coreStart => exact .inr (.inl (andThen_next h))
  | reset => exact .inr (.inr (.inr (Host.Outcome.next.inj h).symm))

/-- What the step does, by what is pending. -/
theorem step_nil {s : State} (h3 : s.resp.status ≠ 3) (hp : s.pending = []) : step s = coreMove s := by
  simp only [step, advance, if_neg h3, hp]

theorem step_cons {s : State} {e : Event} {rest : List Event} (h3 : s.resp.status ≠ 3) (hp : s.pending = e :: rest) :
    step s = takeEvent e { s with pending := rest } := by
  simp only [step, advance, if_neg h3, hp]

end Sys2Proof.Machine
end

