-- ==== Sys2Proof/Machine/ScriptText.lean ====
section
/-! DEFINITION. The written form of host scripts (30_encoding.md R68, R69): one action or pseudo-command a line, `;` starts
a comment. Notation only, no semantics rests on it (92_eei_decisions.md D18; log 16). -/

namespace Sys2Proof.Machine

/-- Why a line is no script line. -/
inductive ScriptReject where
  /-- A text with no closing quote, or a quote inside a word. -/
  | badText
  /-- Not one of the forms of R68 and R69. -/
  | unknownForm
  /-- A number, byte or text that its place does not hold. -/
  | badValue
  deriving DecidableEq, Repr

/-- A piece of a line. -/
inductive Token where
  | word (cs : List Char)
  | text (cs : List Char)
  | comma
  deriving DecidableEq, Repr

/-- What the reader of a line is inside of; a word or text so far stands in reverse. -/
inductive LexMode where
  | gap
  | word (acc : List Char)
  | text (acc : List Char)

/-- The double quote character. -/
def quoteChar : Char := Char.ofNat 0x22

/-- The tokens of one line, up to its comment. -/
def lex : List Char → LexMode → Except ScriptReject (List Token)
  | [], .gap => .ok []
  | [], .word acc => .ok [.word acc.reverse]
  | [], .text _ => .error .badText
  | c :: cs, .gap =>
    if c = ' ' ∨ c = '\t' then lex cs .gap
    else if c = ';' then .ok []
    else if c = ',' then (lex cs .gap).map (Token.comma :: ·)
    else if c = quoteChar then lex cs (.text [])
    else lex cs (.word [c])
  | c :: cs, .word acc =>
    if c = ' ' ∨ c = '\t' then (lex cs .gap).map (Token.word acc.reverse :: ·)
    else if c = ';' then .ok [.word acc.reverse]
    else if c = ',' then (lex cs .gap).map fun ts => .word acc.reverse :: .comma :: ts
    else if c = quoteChar then .error .badText
    else lex cs (.word (c :: acc))
  | c :: cs, .text acc =>
    if c = quoteChar then (lex cs .gap).map (Token.text acc.reverse :: ·) else lex cs (.text (c :: acc))

/-- The value of a digit, either case. -/
def digit (c : Char) : Option Nat :=
  if '0' ≤ c ∧ c ≤ '9' then some (c.toNat - 0x30)
  else if 'a' ≤ c ∧ c ≤ 'f' then some (c.toNat - 0x57)
  else if 'A' ≤ c ∧ c ≤ 'F' then some (c.toNat - 0x37)
  else none

/-- The digits in a base; at least one. -/
def digits (base : Nat) (cs : List Char) : Option Nat :=
  if cs.isEmpty then none
  else cs.foldl (fun acc c => do let n ← acc; let d ← digit c; if d < base then some (n * base + d) else none) (some 0)

/-- A number: `0x` hexadecimal, `0b` binary, else decimal (R8, R69). -/
def number : List Char → Option Nat
  | '0' :: 'x' :: ds => digits 16 ds
  | '0' :: 'b' :: ds => digits 2 ds
  | ds => digits 10 ds

/-- A number below a bound. -/
def numberBelow (bound : Nat) (cs : List Char) : Except ScriptReject Nat :=
  match number cs with
  | some n => if n < bound then .ok n else .error .badValue
  | none => .error .badValue

/-- Any number. -/
def anyNumber (cs : List Char) : Except ScriptReject Nat :=
  match number cs with
  | some n => .ok n
  | none => .error .badValue

/-- The ASCII bytes of a text (R68). -/
def asciiBytes : List Char → Except ScriptReject (List Byte)
  | [] => .ok []
  | c :: cs => if c.toNat < 0x80 then (asciiBytes cs).map (BitVec.ofNat 8 c.toNat :: ·) else .error .badValue

/-- `b0, b1, ...`, each `0xNN` (R68). -/
def byteList : List Token → Except ScriptReject (List Byte)
  | [.word ['0', 'x', a, b]] => do return [BitVec.ofNat 8 (← numberBelow 256 ['0', 'x', a, b])]
  | .word ['0', 'x', a, b] :: .comma :: ts => do
    let n ← numberBelow 256 ['0', 'x', a, b]
    return BitVec.ofNat 8 n :: (← byteList ts)
  | _ => .error .badValue

/-- The field names of `rd F`. -/
def fieldNames : List (List Char × Field) :=
  [("OP".toList, .op), ("DIN".toList, .din), ("IN_LEN".toList, .inLen), ("START".toList, .start),
   ("BUSY".toList, .busy), ("RESP_VALID".toList, .respValid), ("STATUS".toList, .status), ("DOUT".toList, .dout),
   ("ERR_MASK".toList, .errMask), ("ERR_POS".toList, .errPos), ("OUT_LEN".toList, .outLen)]

/-- A value written to a command register (R68). -/
def writeReg (reg v : List Char) : Except ScriptReject (List Action) :=
  if reg = "OP".toList then do return [.wrOp (BitVec.ofNat 2 (← numberBelow 4 v))]
  else if reg = "DIN".toList then do return [.wrDin (BitVec.ofNat 64 (← numberBelow (2 ^ 64) v))]
  else if reg = "IN_LEN".toList then do return [.wrInLen (← anyNumber v)]
  else .error .unknownForm

/-- The word of eight ASCII bytes, the first in [63:56] (R69). -/
def wordOfText (cs : List Char) : Except ScriptReject Word := do
  let bs ← asciiBytes cs
  if bs.length = 8 then return bs.foldl (fun acc b => (acc <<< 8) ||| b.setWidth 64) 0 else .error .badValue

/-- One line as the actions it stands for: none for an empty line, one for an action, the expansion for a
pseudo-command (R68, R69). -/
def parseTokens : List Token → Except ScriptReject (List Action)
  | [] => .ok []
  | [.word w] =>
    if w = "start".toList then .ok [.start] else if w = "wait".toList then .ok [.wait] else .error .unknownForm
  | [.word w, .word a] =>
    if w = "rd".toList then
      match fieldNames.lookup a with
      | some f => .ok [.rd f]
      | none => .error .unknownForm
    else if w = "enc.blk".toList then do
      return (Pseudo.encBlk (BitVec.ofNat 40 (← numberBelow (2 ^ 40) a))).expand
    else if w = "dec.blk".toList then do
      return (Pseudo.decBlk (BitVec.ofNat 64 (← numberBelow (2 ^ 64) a))).expand
    else if w = "enc.str".toList then do return (Pseudo.encStr (← anyNumber a)).expand
    else if w = "dec.str".toList then do return (Pseudo.decStr (← anyNumber a)).expand
    else .error .unknownForm
  | [.word w, .text t] =>
    if w = "dec.blk".toList then do return (Pseudo.decBlk (← wordOfText t)).expand else .error .unknownForm
  | [.word w, .word i, .comma, .text t] =>
    if w = "in".toList then do return [.writeIn (← anyNumber i) (← asciiBytes t)] else .error .unknownForm
  | [.word w, .word o, .comma, .word i, .comma, .word n] =>
    if w = "rd".toList ∧ o = "OUT".toList then
      if n = "OUT_LEN".toList then do return [.rdOut (← anyNumber i) .outLen]
      else do return [.rdOut (← anyNumber i) (.lit (← anyNumber n))]
    else if w = "in".toList then do
      return [.writeIn (← anyNumber o) (← byteList [.word i, .comma, .word n])]
    else .error .unknownForm
  | .word w :: .word a :: .comma :: .word b :: ts =>
    if w = "wr".toList ∧ ts = [] then writeReg a b
    else if w = "in".toList then do return [.writeIn (← anyNumber a) (← byteList (.word b :: ts))]
    else .error .unknownForm
  | _ => .error .unknownForm

/-- One line of a script. -/
def parseLine (line : List Char) : Except ScriptReject (List Action) := do
  parseTokens (← lex line .gap)

/-- A script, line by line. -/
def parseScript : List (List Char) → Except ScriptReject (List Action)
  | [] => .ok []
  | l :: ls => do
    let a ← parseLine l
    return a ++ (← parseScript ls)

end Sys2Proof.Machine
end

