-- ==== Sys2Proof/Tests/Slice0.lean ====
section
/-! SUPPORT. Tests: expected results are the spec's own vectors (95_test_vectors.md) and encodings (30_encoding.md R58).
The second half shows, for every statement with hypotheses, concrete states that meet them. -/

namespace Sys2Proof.Tests

open Sys2Proof.Machine

/-! ### Decoding: the words of R58, bit by bit (bit 1 GRAN, bit 0 DIR) -/

theorem test_decode_enc_blk : decodeTableWord 8 0b00000000 = some .encBlk := by decide
theorem test_decode_dec_blk : decodeTableWord 8 0b00000001 = some .decBlk := by decide
theorem test_decode_enc_str : decodeTableWord 8 0b00000010 = some .encStr := by decide
theorem test_decode_dec_str : decodeTableWord 8 0b00000011 = some .decStr := by decide
theorem test_decode_rejects_bit_above_op : decodeWord 0b100 = .error .bitAboveOp := by rfl

/-! ### Well-formedness: each check refuses an ill-formed move, and takes one at the edge -/

/-- A small block: MAX_IN_LEN 16, MAX_OUT_LEN 24, LEN_W 5, PAR 2. -/
def small : Config := { maxInLen := 16, maxOutLen := 24, lenW := 5, par := 2 }

theorem test_small_ok : small.Ok := by decide
theorem test_wf_in_refused : (Action.writeIn 15 [0x41, 0x42]).wellFormed small = false := by decide
theorem test_wf_in_edge : (Action.writeIn 14 [0x41, 0x42]).wellFormed small = true := by decide
theorem test_wf_len_refused : (Action.wrInLen 32).wellFormed small = false := by decide
theorem test_wf_out_refused : (Action.rdOut 20 (.lit 5)).wellFormed small = false := by decide
theorem test_wf_no_bytes : (Action.rdOut 25 (.lit 0)).wellFormed small = true := by decide
theorem test_cfg_refused : ¬ ({ small with maxOutLen := 23 } : Config).Ok := by decide

/-! ### States to test on -/

/-- A small block with a command in flight. -/
def flying (op : BitVec 2) (din : Word) (len : Nat) (inp : List Byte) : State :=
  { State.powerOn small with
    busy := true
    latch := { op := op, din := din, inLen := len }
    inBuf := Memory.setMany [] 0 inp }

/-- A small block with something to happen. -/
def idle (events : List Event) : State := { State.powerOn small with pending := events }

/-- The response of a next state. -/
def respOf : Host.Outcome State Fault Refusal → Option Response
  | .next t => some t.resp
  | .fault _ => none
  | .refused _ => none

/-- Bytes 0 .. n-1 of OUT in a next state. -/
def outOf (n : Nat) : Host.Outcome State Fault Refusal → List Byte
  | .next t => t.outBytes 0 n
  | .fault _ => []
  | .refused _ => []

/-- What the host has got, in a next state. -/
def gotOf : Host.Outcome State Fault Refusal → List Reply
  | .next t => t.got
  | .fault _ => []
  | .refused _ => []

/-- "HelloWorld" and its encoding, and the stream of 95_test_vectors.md Program 3. -/
def helloWorld : List Byte := [0x48, 0x65, 0x6C, 0x6C, 0x6F, 0x57, 0x6F, 0x72, 0x6C, 0x64]
def jbswy : List Byte :=
  [0x4A, 0x42, 0x53, 0x57, 0x59, 0x32, 0x44, 0x50, 0x4B, 0x34, 0x58, 0x58, 0x45, 0x32, 0x44, 0x45]
def abcdefg9 : List Byte :=
  [0x41, 0x42, 0x43, 0x44, 0x45, 0x46, 0x47, 0x48, 0x41, 0x42, 0x43, 0x44, 0x45, 0x46, 0x47, 0x39]

/-! ### The spec's vectors -/

/-- V3. -/
theorem test_enc_blk_v3 : respOf (exec .encBlk (flying 0 0x00000000443214C7 0 [])) =
    some { status := 0, dout := 0x4142434445464748, errMask := 0, errPos := 0, outLen := 0 } := by decide
/-- T-ENC, mixed value, with DIN[63:40] set. -/
theorem test_enc_blk_ignores_high : respOf (exec .encBlk (flying 0 0xFFFFFF0123456789 0 [])) =
    some { status := 0, dout := 0x414552554B5A334A, errMask := 0, errPos := 0, outLen := 0 } := by decide
/-- T-DEC, "YZ123456". -/
theorem test_dec_blk_seam : respOf (exec .decBlk (flying 1 0x595A313233343536 0 [])) =
    some { status := 0, dout := 0xC675BE77DF, errMask := 0, errPos := 0, outLen := 0 } := by decide
/-- V13, "A0A8A9A7". -/
theorem test_dec_blk_v13 : respOf (exec .decBlk (flying 1 0x4130413841394137 0 [])) =
    some { status := 2, dout := 0, errMask := 0xAA, errPos := 1, outLen := 0 } := by decide
/-- T-ESTR, "HelloWorld". -/
theorem test_enc_str_hello :
    respOf (exec .encStr (flying 2 0 10 helloWorld)) =
      some { status := 0, dout := 0, errMask := 0, errPos := 0, outLen := 16 } ∧
    outOf 16 (exec .encStr (flying 2 0 10 helloWorld)) = jbswy := by decide
/-- V11. -/
theorem test_enc_str_v11 : respOf (exec .encStr (flying 2 0 3 [0x61, 0x62, 0x63])) =
    some { status := 1, dout := 0, errMask := 0, errPos := 0, outLen := 0 } := by decide
/-- T-DSTR, "JBSWY2DPK4XXE2DE". -/
theorem test_dec_str_hello :
    respOf (exec .decStr (flying 3 0 16 jbswy)) =
      some { status := 0, dout := 0, errMask := 0, errPos := 0, outLen := 10 } ∧
    outOf 10 (exec .decStr (flying 3 0 16 jbswy)) = helloWorld := by decide
/-- T-DSTR, '9' at index 15, and the same bytes with the wrong length 15. -/
theorem test_dec_str_errors :
    respOf (exec .decStr (flying 3 0 16 abcdefg9)) =
      some { status := 2, dout := 0, errMask := 0, errPos := 15, outLen := 0 } ∧
    respOf (exec .decStr (flying 3 0 15 abcdefg9)) =
      some { status := 1, dout := 0, errMask := 0, errPos := 0, outLen := 0 } := by decide
/-- T-LANE, GROUPS_TO_40 and RMAP. -/
theorem test_groups : groupsTo40 (fun k => BitVec.ofNat 5 (24 + k.val)) = 0xC675BE77DF#40 := by decide
theorem test_rmap_illegal : [0x30, 0x37, 0x61, 0x3D, 0x40, 0x5B, 0x00, 0x80, 0xC1, 0xFF].all
    (fun c : Byte => rmap c = { valid := false, idx := 0 }) = true := by decide

/-! ### Steps -/

/-- A command word placed at reset runs as the first step. -/
theorem test_first_step_after_reset : respOf (step (State.reset.withFetchWord 8 2)) =
    some { status := 0, dout := 0, errMask := 0, errPos := 0, outLen := 0 } := by decide
/-- T-HS: a START while BUSY = 1 is ignored. -/
theorem test_start_while_busy :
    step { flying 2 0 5 helloWorld with pending := [.host .start] } = .next (flying 2 0 5 helloWorld) := by rfl
/-- R118 and R115: the two host duties. -/
theorem test_start_too_long :
    step { idle [.host .start] with cmd := { op := 0, din := 0, inLen := 17 } } = .refused .startLenTooLong := by rfl
theorem test_in_while_busy :
    step { flying 2 0 5 helloWorld with pending := [.host (.writeIn 0 [0])] } = .refused .inWriteWhileBusy := by rfl
/-- R33: a read of OUT_LEN bytes of OUT while BUSY = 1 goes on, whatever OUT_LEN is drawn. -/
theorem test_busy_read_out_len : (step { flying 2 0 5 helloWorld with pending := [.host (.rdOut 24 .outLen)] }) =
    .next { flying 2 0 5 helloWorld with draws := 1, got := [.bytes 24 []] } := by
  have h : drawnCount (flying 2 0 5 helloWorld) 24 = 0 := Nat.min_zero _
  show State.readOut _ 24 (drawnCount (flying 2 0 5 helloWorld) 24) = _
  rw [h]
  rfl
/-- A move of no bytes touches no index and goes on wherever it points (log 9). -/
theorem test_no_bytes : step (idle [.host (.writeIn 99 [])]) = .next (idle []) ∧
    step { flying 2 0 5 [] with pending := [.host (.writeIn 99 [])] } = .next (flying 2 0 5 []) ∧
    gotOf (step (idle [.host (.rdOut 99 .outLen)])) = [.bytes 99 []] := ⟨rfl, rfl, by decide⟩
/-- START reads as 0 and STATUS reads after reset (T-HS). -/
theorem test_reads : gotOf (step (idle [.host (.rd .start)])) = [.field .start 0] ∧
    gotOf (step (idle [.host (.rd .status)])) = [.field .status 0] := by decide

/-! ### Script text (R68, R69) -/

theorem test_text_wr : parseLine "    wr OP, 0b10   ; stream".toList = .ok [.wrOp 2] := by rfl
theorem test_text_in : parseLine "in 0, 0x00, 0x44, 0xC7".toList = .ok [.writeIn 0 [0x00, 0x44, 0xC7]] := by rfl
theorem test_text_in_ascii :
    parseTokens [.word "in".toList, .word "0".toList, .comma, .text "ABC".toList] =
      .ok [.writeIn 0 [0x41, 0x42, 0x43]] := by rfl
theorem test_text_rd_out : parseLine "rd OUT, 0, OUT_LEN".toList = .ok [.rdOut 0 .outLen] := by rfl
theorem test_text_enc_blk : parseLine "enc.blk 0x0123456789".toList =
    .ok [.wrDin 0x0000000123456789, .wrOp 0, .start, .wait] := by rfl
theorem test_text_dec_blk : parseTokens [.word "dec.blk".toList, .text "ABCDEFGH".toList] =
    .ok [.wrDin 0x4142434445464748, .wrOp 1, .start, .wait] := by rfl
theorem test_text_rejects : parseLine "jump 3".toList = .error .unknownForm ∧
    parseLine "wr OP, 4".toList = .error .badValue := ⟨rfl, rfl⟩

/-! ### Witnesses: states that meet the hypotheses of each statement -/

/-- Symbols "ABCDEFGH" in DIN, and '9' in lane 0 (T-DEC "96FEDCBA"). -/
def good : State := flying 1 0x4142434445464748 0 []
def bad : State := flying 1 0x3936464544434241 0 []

theorem flying_enc_inv : (flying 2 0 10 helloWorld).Inv := by constructor <;> decide

theorem idle_inv (events : List Event) : (idle events).Inv where
  cfgOk := test_small_ok
  inWf := by show Memory.wf []; decide
  outWf := by show Memory.wf []; decide
  inBelow := by show Memory.below [] 16; decide
  outBelow := by show Memory.below [] 24; decide
  inLenFits := by show (0 : Nat) < 2 ^ 5; decide
  latchFits := by show (0 : Nat) < 2 ^ 5; decide
  errPosFits := by show (0 : Nat) < 2 ^ 5; decide
  outLenFits := Nat.zero_le _
  lenDuty := fun h => nomatch h
  handshake := fun h => nomatch h
  afterReset := fun _ _ => rfl
  noReserved := by show ¬ (0#2 = 3); decide
  errorNoOutput := fun _ => ⟨rfl, rfl⟩
  onlyBadCharPos := fun _ => ⟨rfl, rfl⟩

theorem witness_EncodeDecodeAgree : (2 ≤ 2 ∧ 2 ≤ 8) ∧ 4 ≤ 4 % 2 ^ 8 := by decide
theorem witness_DontCareBitsChangeNothing :
    (0xFFFFFF0123456789#64).extractLsb' 0 40 = (0x0000000123456789#64).extractLsb' 0 40 ∧
    ∃ s t : State, exec .decBlk s = .next t := ⟨by decide, good, _, rfl⟩
theorem witness_AlphabetContents : (25#5).toNat < 26 ∧ 26 ≤ (26#5).toNat ∧ map 25 = map 25 := by decide
theorem witness_ReverseTableInvertsAlphabet : map 26 = 0x31 ∧ ¬ IsSymbol 0x37 := by decide
theorem witness_ChunkBytesInverse : bytesOf40 0x398A418820 = [0x39, 0x8A, 0x41, 0x88, 0x20] := by decide
theorem witness_DecBlkDecodesOrReports :
    3 ≤ good.cfg.lenW ∧ (∀ k, IsSymbol (symbol good.latch.din k)) ∧
    3 ≤ bad.cfg.lenW ∧ ∃ k, ¬ IsSymbol (symbol bad.latch.din k) := by
  refine ⟨by decide, by decide, by decide, 0, by decide⟩
theorem witness_EncodersWriteOnlySymbols :
    (∃ s t : State, exec .encBlk s = .next t) ∧
    (∃ s t : State, exec .encStr s = .next t ∧ 15 < t.resp.outLen) :=
  ⟨⟨good, _, rfl⟩, flying 2 0 10 helloWorld, _, rfl, by decide⟩
theorem witness_BlockEncodeThenDecode :
    ∃ s t u : State, exec .encBlk s = .next t ∧ u.latch.din = t.resp.dout :=
  ⟨flying 0 0x443214C7 0 [], _, good, rfl, by decide⟩
theorem witness_BlockDecodeThenEncode :
    ∃ s t u : State, exec .decBlk s = .next t ∧ t.resp.status = 0 ∧ u.latch.din = t.resp.dout :=
  ⟨good, _, flying 0 0x443214C7 0 [], rfl, by decide, by decide⟩
theorem witness_BlockCommandsFrame :
    (∃ s t : State, exec .encBlk s = .next t) ∧ (∃ s t : State, exec .decBlk s = .next t) :=
  ⟨⟨good, _, rfl⟩, bad, _, rfl⟩
theorem witness_InvalidLengthReported :
    (flying 2 0 4 []).latch.inLen % 5 ≠ 0 ∧ (flying 3 0 7 []).latch.inLen % 8 ≠ 0 ∧
    ∃ s t : State, exec .encStr s = .next t ∧ t.resp.status = 1 :=
  ⟨by decide, by decide, flying 2 0 3 [], _, rfl, by decide⟩
theorem witness_InvalidCharacterReported :
    (∃ s t : State, 3 ≤ s.cfg.lenW ∧ exec .decBlk s = .next t ∧ t.resp.status = 2) ∧
    (∃ s t : State, s.cfg.FitsLen s.latch.inLen ∧ exec .decStr s = .next t ∧ t.resp.status = 2 ∧ t.resp.errPos = 15) :=
  ⟨⟨bad, _, by decide, rfl, by decide⟩, flying 3 0 16 abcdefg9, _, by decide, rfl, by decide, by decide⟩
theorem witness_EncStrEncodesStream :
    (small.Ok ∧ (flying 2 0 16 []).latch.inLen ≤ small.maxInLen ∧ (flying 2 0 16 []).latch.inLen % 5 ≠ 0) ∧
    (small.Ok ∧ (flying 2 0 15 []).latch.inLen ≤ small.maxInLen ∧ (flying 2 0 15 []).latch.inLen % 5 = 0 ∧
      2 < (flying 2 0 15 []).latch.inLen / 5) := by decide
theorem witness_DecStrDecodesOrReports :
    (small.Ok ∧ (flying 3 0 15 []).latch.inLen ≤ small.maxInLen ∧ (flying 3 0 15 []).latch.inLen % 8 ≠ 0) ∧
    ((flying 3 0 16 abcdefg9).latch.inLen ≤ small.maxInLen ∧ (flying 3 0 16 abcdefg9).latch.inLen % 8 = 0 ∧
      15 < (flying 3 0 16 abcdefg9).latch.inLen ∧ ¬ IsSymbol ((flying 3 0 16 abcdefg9).inByte 15) ∧
      ∀ i < 15, IsSymbol ((flying 3 0 16 abcdefg9).inByte i)) ∧
    ((flying 3 0 16 jbswy).latch.inLen ≤ small.maxInLen ∧ (flying 3 0 16 jbswy).latch.inLen % 8 = 0 ∧
      ∀ i < 16, IsSymbol ((flying 3 0 16 jbswy).inByte i)) := by decide
theorem witness_StreamCommandsFrame :
    (∃ s t : State, exec .encStr s = .next t ∧ t.resp.status = 0 ∧ s.latch.inLen / 5 * 8 ≤ 16) ∧
    (∃ s t : State, exec .encStr s = .next t ∧ t.resp.status ≠ 0) ∧
    (∃ s t : State, exec .decStr s = .next t ∧ t.resp.status = 0 ∧ s.latch.inLen / 8 * 5 ≤ 10) ∧
    (∃ s t : State, exec .decStr s = .next t ∧ t.resp.status ≠ 0) :=
  ⟨⟨flying 2 0 10 helloWorld, _, rfl, by decide, by decide⟩, ⟨flying 2 0 3 [], _, rfl, by decide⟩,
   ⟨flying 3 0 16 jbswy, _, rfl, by decide, by decide⟩, flying 3 0 16 abcdefg9, _, rfl, by decide⟩
theorem witness_StreamLengthLaw :
    (∃ s t : State, s.cfg.Ok ∧ exec .encStr s = .next t ∧ t.resp.status = 0) ∧
    (∃ s t : State, s.cfg.Ok ∧ exec .decStr s = .next t ∧ t.resp.status = 0) :=
  ⟨⟨flying 2 0 10 helloWorld, _, by decide, rfl, by decide⟩, flying 3 0 16 jbswy, _, by decide, rfl, by decide⟩
theorem witness_EmptyStreamSucceeds : (flying 2 0 0 helloWorld).latch.inLen = 0 := by decide
theorem witness_OneChunkStreamIsBlock :
    (∃ s u tb : State, s.cfg.Ok ∧ 5 ≤ s.cfg.maxInLen ∧ s.latch.inLen = 5 ∧
      (∀ i : Fin 5, s.inByte i.val = rawByte u.latch.din i) ∧ exec .encBlk u = .next tb) ∧
    (∃ s u tb : State, s.cfg.Ok ∧ 8 ≤ s.cfg.maxInLen ∧ s.latch.inLen = 8 ∧
      (∀ k : Lane, s.inByte k.val = symbol u.latch.din k) ∧ exec .decBlk u = .next tb ∧ tb.resp.status = 0) :=
  ⟨⟨flying 2 0 5 [0x00, 0x44, 0x32, 0x14, 0xC7], flying 0 0x443214C7 0 [], _, by decide, by decide, by decide, by decide,
      rfl⟩,
   flying 3 0 8 abcdefg9, good, _, by decide, by decide, by decide, by decide, rfl, by decide⟩
theorem witness_StreamEncodeThenDecode :
    ∃ (s : State) (n : Nat) (t u : State), s.cfg.Ok ∧ s.latch.inLen = 5 * n ∧ 5 * n ≤ s.cfg.maxInLen ∧ 8 * n ≤ s.cfg.maxInLen ∧
      exec .encStr s = .next t ∧ u.cfg = s.cfg ∧ u.latch.inLen = 8 * n ∧ ∀ i < 8 * n, u.inByte i = t.outByte i :=
  ⟨flying 2 0 10 helloWorld, 2, _, flying 3 0 16 jbswy, by decide, by decide, by decide, by decide, rfl, rfl, by decide,
    by decide⟩
theorem witness_StreamDecodeThenEncode :
    ∃ (s : State) (n : Nat) (t u : State), s.cfg.Ok ∧ s.latch.inLen = 8 * n ∧ 8 * n ≤ s.cfg.maxInLen ∧
      (∀ i < 8 * n, IsSymbol (s.inByte i)) ∧
      exec .decStr s = .next t ∧ u.cfg = s.cfg ∧ u.latch.inLen = 5 * n ∧ ∀ i < 5 * n, u.inByte i = t.outByte i :=
  ⟨flying 3 0 16 jbswy, 2, _, flying 2 0 10 helloWorld, by decide, by decide, by decide, by decide, rfl, rfl, by decide,
    by decide⟩
theorem witness_UnreadBytesDoNotMatter :
    ∃ (s : State) (m : Memory), s.latch.inLen % 5 = 0 ∧ m ≠ s.inBuf ∧
      ∀ a < s.latch.inLen, { s with inBuf := m }.inByte a = s.inByte a :=
  ⟨flying 2 0 5 helloWorld, Memory.setMany [] 0 (helloWorld.take 5), by decide, by decide, by decide⟩
theorem witness_UnreadBytesDoNotMatter_decode :
    ∃ (s : State) (m : Memory), s.latch.inLen % 8 = 0 ∧ m ≠ s.inBuf ∧
      ∀ a < s.latch.inLen, { s with inBuf := m }.inByte a = s.inByte a :=
  ⟨flying 3 0 8 abcdefg9, Memory.setMany [] 0 (abcdefg9.take 8), by decide, by decide, by decide⟩
theorem witness_AbsentIndicesFault :
    (∃ s : State, s.latch.inLen % 5 = 0 ∧ s.cfg.maxInLen < s.latch.inLen) ∧
    (∃ s : State, s.latch.inLen % 8 = 0 ∧ s.cfg.maxInLen < s.latch.inLen) ∧
    (∃ s : State, s.busy = false ∧ 0 < [0x41#8].length ∧ s.cfg.maxInLen ≤ 16 + 0) ∧
    (∃ s : State, 0 < 1 ∧ s.cfg.maxOutLen ≤ 24 + 0) ∧
    (∃ s : State, s.busy = false ∧ 7 < s.resp.outLen ∧ s.cfg.maxOutLen ≤ 17 + 7) :=
  ⟨⟨flying 2 0 20 [], by decide⟩, ⟨flying 3 0 24 [], by decide⟩, ⟨idle [], by decide⟩, ⟨idle [], by decide⟩,
   { idle [] with resp := { Response.zero with outLen := 8 } }, by decide⟩
theorem witness_ErrorResponseWritten : small.FitsLen 31 := by decide
theorem witness_ErrorsArePrecise : ∃ s t : State, exec .decStr s = .next t ∧ t.resp.status ≠ 0 :=
  ⟨flying 3 0 16 abcdefg9, _, rfl, by decide⟩
theorem witness_ReservedStatusIsModelFault :
    (∃ s t : State, exec .encBlk s = .next t) ∧ ∃ s : State, s.resp.status = 3 :=
  ⟨⟨good, _, rfl⟩, { idle [] with resp := { Response.zero with status := 3 } }, rfl⟩
theorem witness_CommandsKeepNoHistory :
    ∃ s u t : State, u ≠ s ∧ u.cfg = s.cfg ∧ u.latch.din = s.latch.din ∧ u.latch.inLen = s.latch.inLen ∧
      (∀ a, u.inByte a = s.inByte a) ∧ exec .encStr s = .next t ∧ 0 < t.resp.outLen :=
  ⟨flying 2 0 10 helloWorld, { flying 2 0 10 helloWorld with outBuf := [(3, 0x41)], respValid := true }, _, by decide, rfl,
    rfl, rfl, fun _ => rfl, rfl, by decide⟩
theorem witness_StartHandshake :
    (∃ (s : State) (rest : List Event), s.resp.status ≠ 3 ∧ s.pending = .host .start :: rest ∧ s.busy = false ∧ s.cmd.inLen ≤ s.cfg.maxInLen) ∧
    (∃ (s : State) (rest : List Event), s.resp.status ≠ 3 ∧ s.pending = .host .start :: rest ∧ s.busy = true) ∧
    (∃ (s : State) (rest : List Event), s.resp.status ≠ 3 ∧ s.pending = .host (.rd .start) :: rest) :=
  ⟨⟨{ idle [.host .start] with cmd := { op := 2, din := 0, inLen := 16 } }, [], by decide, rfl, rfl, by decide⟩,
   ⟨{ good with pending := [.host .start] }, [], by decide, rfl, rfl⟩, idle [.host (.rd .start)], [], by decide, rfl⟩
theorem witness_BusyFromAcceptanceToCompletion :
    (∃ s t : State, s.busy = false ∧ hostMove .start s = .next t) ∧ (∃ s t : State, exec .encStr s = .next t) ∧
    (∃ s t : State, Action.rd .status ≠ .start ∧ hostMove (.rd .status) s = .next t) :=
  ⟨⟨idle [], _, rfl, rfl⟩, ⟨flying 2 0 10 helloWorld, _, rfl⟩, idle [], _, by decide, rfl⟩
theorem witness_StartTooLongRefused :
    (∃ (s : State) (rest : List Event), s.resp.status ≠ 3 ∧ s.pending = .host .start :: rest ∧ s.busy = false ∧
      s.cfg.maxInLen < s.cmd.inLen) ∧
    (∃ (s : State) (rest : List Event), s.resp.status ≠ 3 ∧ s.pending = .coreStart :: rest ∧ s.busy = false ∧
      s.cfg.maxInLen < s.cmd.inLen) ∧
    (∃ (s : State) (rest : List Event) (t : State), s.resp.status ≠ 3 ∧ s.pending = .coreStart :: rest ∧ s.busy = true ∧
      exec (decode s.latch.op) { s with pending := rest } = .next t ∧ s.cfg.maxInLen < s.cmd.inLen) :=
  ⟨⟨{ idle [.host .start] with cmd := { op := 0, din := 0, inLen := 17 } }, [], by decide, rfl, rfl, by decide⟩,
   ⟨{ idle [.coreStart] with cmd := { op := 0, din := 0, inLen := 17 } }, [], by decide, rfl, rfl, by decide⟩,
   { good with pending := [.coreStart], cmd := { op := 0, din := 0, inLen := 17 } }, [], _, by decide, rfl, rfl, rfl,
    by decide⟩
theorem witness_InNotWrittenWhileBusy :
    (∃ (s : State) (rest : List Event) (bs : List Byte), s.resp.status ≠ 3 ∧
      s.pending = .host (.writeIn 0 bs) :: rest ∧ s.busy = true ∧ bs ≠ []) ∧
    (∃ s t : State, s.busy = true ∧ hostMove (.wrOp 1) s = .next t) :=
  ⟨⟨{ good with pending := [.host (.writeIn 0 [0x41])] }, [], [0x41], by decide, rfl, rfl, by decide⟩, good, _, rfl, rfl⟩
theorem witness_HostWritesInReadBack :
    good.busy = true ∧ (idle []).busy = false ∧ (idle []).cfg.InRange 14 [0x41#8, 0x42#8].length ∧
    (idle []).cfg.InRange 99 ([] : List Byte).length := by decide
theorem witness_BuffersAreDisjoint :
    (∃ s t : State, exec .encStr s = .next t) ∧ (∃ s t : State, hostMove (.writeIn 0 [0x41]) s = .next t) :=
  ⟨⟨flying 2 0 10 helloWorld, _, rfl⟩, idle [], _, rfl⟩
theorem witness_HostWritesCommandRegisters :
    31 < 2 ^ (idle []).cfg.lenW ∧ ¬ 32 < 2 ^ (idle []).cfg.lenW := by decide
theorem witness_IdleReadsShowFields :
    ((idle []).busy = false ∧ (idle []).cfg.OutRange 20 4 ∧ (idle []).cfg.OutRange 99 0) ∧
    ∃ s : State, s.busy = false ∧ s.resp.outLen = 16 ∧ s.cfg.OutRange 8 s.resp.outLen :=
  ⟨by decide, { idle [] with resp := { Response.zero with outLen := 16 } }, rfl, rfl, by decide⟩
theorem witness_BusyReadsShowNothing :
    good.busy = true ∧ (Action.rdOut 20 (.lit 4)).readsResponse = true ∧ (Action.rd .errPos).readsResponse = true ∧
    good.cfg.OutRange 20 4 := by decide
theorem witness_LatchesUnusedWhileIdle : (idle [.reset]).busy = false := by decide
theorem witness_StepRunsDecodedCommand :
    (∃ s : State, s.resp.status ≠ 3 ∧ s.busy = true ∧ decode s.latch.op = .decBlk ∧ s.pending = []) ∧
    (∃ (s : State) (rest : List Event), s.resp.status ≠ 3 ∧ s.busy = true ∧ decode s.latch.op = .decBlk ∧
      s.pending = .core :: rest) ∧
    (∃ (s : State) (rest : List Event), s.resp.status ≠ 3 ∧ s.busy = true ∧ decode s.latch.op = .decBlk ∧
      s.pending = .host .wait :: rest) :=
  ⟨⟨good, by decide, rfl, by decide, rfl⟩, ⟨{ good with pending := [.core] }, [], by decide, rfl, by decide, rfl⟩,
   { good with pending := [.host .wait] }, [], by decide, rfl, by decide, rfl⟩
theorem witness_StepTakesNextEvent :
    (∃ (s : State) (rest : List Event), s.resp.status ≠ 3 ∧ s.pending = .host (.rdOut 0 .outLen) :: rest ∧
      (Action.rdOut 0 .outLen ≠ .wait ∨ s.busy = false)) ∧
    (∃ (s : State) (rest : List Event), s.resp.status ≠ 3 ∧ s.pending = .host .wait :: rest ∧ s.busy = false) ∧
    (∃ (s : State) (rest : List Event), s.resp.status ≠ 3 ∧ s.pending = .reset :: rest) ∧
    (∃ (s : State) (rest : List Event) (t : State), s.resp.status ≠ 3 ∧ s.pending = .coreStart :: rest ∧ s.busy = true ∧
      exec (decode s.latch.op) { s with pending := rest } = .next t) ∧
    (∃ (s : State) (rest : List Event), s.resp.status ≠ 3 ∧ s.pending = .coreStart :: rest ∧ s.busy = false) :=
  ⟨⟨{ good with pending := [.host (.rdOut 0 .outLen)] }, [], by decide, rfl, by decide⟩,
   ⟨idle [.host .wait], [], by decide, rfl, rfl⟩, ⟨{ good with pending := [.reset] }, [], by decide, rfl⟩,
   ⟨{ good with pending := [.coreStart] }, [], _, by decide, rfl, rfl, rfl⟩, idle [.coreStart], [], by decide, rfl, rfl⟩
theorem witness_PlacedWordRunsNext : 2 ≤ 8 ∧ State.reset.resp.status ≠ 3 := by decide
theorem witness_SimultaneousEventsOrdered :
    (∃ (s : State) (rest : List Event), s.resp.status ≠ 3 ∧ s.busy = true ∧ s.pending = .host .start :: rest) ∧
    (∃ (s : State) (rest : List Event), s.resp.status ≠ 3 ∧ s.busy = true ∧ s.pending = .reset :: rest) ∧
    (∃ (s : State) (rest : List Event) (t : State), s.resp.status ≠ 3 ∧ s.busy = true ∧ s.pending = .coreStart :: rest ∧
      exec (decode s.latch.op) { s with pending := rest } = .next t ∧ s.cmd.inLen ≤ s.cfg.maxInLen) :=
  ⟨⟨{ good with pending := [.host .start] }, [], by decide, rfl, rfl⟩,
   ⟨{ good with pending := [.reset] }, [], by decide, rfl, rfl⟩,
   { good with pending := [.coreStart] }, [], _, by decide, rfl, rfl, rfl, by decide⟩
theorem witness_IdleBlockKeepsState :
    (∃ s : State, s.resp.status ≠ 3 ∧ s.busy = false ∧ s.pending = []) ∧
    (∃ (s : State) (rest : List Event), s.resp.status ≠ 3 ∧ s.busy = false ∧ s.pending = .core :: rest) :=
  ⟨⟨idle [], by decide, rfl, rfl⟩, idle [.core], [], by decide, rfl, rfl⟩
theorem witness_AcceptedCommandCompletes :
    ∃ s : State, s.Inv ∧ s.busy = true ∧ ∀ e ∈ s.pending, e.quiet = true :=
  ⟨flying 2 0 10 helloWorld, flying_enc_inv, rfl, fun _ h => nomatch h⟩
theorem witness_PseudoCommandsRun :
    ∃ (s : State) (p : Pseudo), s.Inv ∧ s.busy = false ∧ s.cmd.inLen ≤ s.cfg.maxInLen ∧ s.pending = eventsOf p.expand ∧
      ∀ n, p = .encStr n ∨ p = .decStr n → n ≤ s.cfg.maxInLen :=
  ⟨idle (eventsOf (Pseudo.encStr 16).expand), .encStr 16, idle_inv _, rfl, Nat.zero_le _, rfl, fun n h => by
    rcases h with h | h <;> cases h
    decide⟩
theorem witness_ResetClearsRegisters :
    ∃ (s : State) (rest : List Event), s.resp.status ≠ 3 ∧ s.busy = true ∧ s.pending = .reset :: rest :=
  ⟨{ good with pending := [.reset] }, [], by decide, rfl, rfl⟩
theorem witness_BuffersAcrossReset :
    (∃ s : State, s.busy = false) ∧ (∃ s : State, s.busy = true ∧ decode s.latch.op = .encStr) ∧
    (∃ s : State, s.busy = true ∧ decode s.latch.op = .decStr) :=
  ⟨⟨idle [], rfl⟩, ⟨flying 2 0 5 [], rfl, by decide⟩, flying 3 0 8 [], rfl, by decide⟩
theorem witness_ResetDuringBlockKeepsBuffers : good.busy = true ∧ decode good.latch.op = .decBlk := by decide
theorem witness_ResetMeetsInvariant : small.Ok := test_small_ok
theorem witness_StepKeepsInvariant : ∃ s t : State, s.Inv ∧ step s = .next t ∧ t.resp.outLen = 16 :=
  ⟨flying 2 0 10 helloWorld, _, flying_enc_inv, rfl, by decide⟩
theorem witness_DutifulStepNeverStops : ∃ s : State, s.Inv ∧ s.nextDutiful ∧ s.pending = [.host (.writeIn 15 [0x41])] :=
  ⟨idle [.host (.writeIn 15 [0x41])], idle_inv _, ⟨.inl rfl, by decide⟩, rfl⟩

end Sys2Proof.Tests
end

section
/-! PROOFS. What a command's answer depends on (00_scope.md R7, R14). A command answers with bytes at the start of OUT and
a response, or with a fault; states that agree on its operands, on the bytes of IN it reads and on the sizes of the
buffers get the same answer. Both statements about it are read off from that. -/

namespace Sys2Proof.Machine

/-- The outcomes `o` from `s` and `p` from `u` are one answer: the same output bytes and the same response, each put into
its own state, or the same fault. -/
inductive AnswerAlike (s u : State) :
    Host.Outcome State Fault Refusal → Host.Outcome State Fault Refusal → Prop
  | respond (r : Response) (bs : List Byte) (hr : r.outLen = bs.length) :
      AnswerAlike s u (.next ((s.memWriteOut 0 bs).respond r)) (.next ((u.memWriteOut 0 bs).respond r))
  | fault (e : Fault) : AnswerAlike s u (.fault e) (.fault e)

/-- A response that writes no byte of OUT. -/
theorem AnswerAlike.of_noOutput {s u : State} (r : Response) (hr : r.outLen = 0) :
    AnswerAlike s u (.next (s.respond r)) (.next (u.respond r)) := .respond r [] hr

/-- An error response. -/
theorem AnswerAlike.of_raise {s u : State} (i : Instr) (e : CmdError) :
    AnswerAlike s u (.next (s.raise i e)) (.next (u.raise i e)) := .of_noOutput _ rfl

/-- A stream's output fits both OUT buffers or neither. -/
theorem AnswerAlike.of_commitStream {s u : State} (hout : u.cfg.maxOutLen = s.cfg.maxOutLen) (bs : List Byte) :
    AnswerAlike s u (s.commitStream bs) (u.commitStream bs) := by
  have hrange : u.cfg.OutRange 0 bs.length ↔ s.cfg.OutRange 0 bs.length := by simp only [Config.OutRange, hout]
  by_cases h : s.cfg.OutRange 0 bs.length
  · rw [commitStream_next.2 ⟨h, rfl⟩, commitStream_next.2 ⟨hrange.2 h, rfl⟩]
    exact .respond _ bs rfl
  · rw [commitStream_absent h, commitStream_absent (mt hrange.1 h)]
    exact .fault _

/-- ENC_BLK reads L_DIN only (40_block_ops.md R77). -/
theorem execEncBlk_alike {s u : State} (hdin : u.latch.din = s.latch.din) :
    AnswerAlike s u (execEncBlk s) (execEncBlk u) := by
  unfold execEncBlk
  rw [hdin]
  exact .of_noOutput _ rfl

/-- DEC_BLK reads L_DIN only (40_block_ops.md R78). -/
theorem execDecBlk_alike {s u : State} (hdin : u.latch.din = s.latch.din) :
    AnswerAlike s u (execDecBlk s) (execDecBlk u) := by
  rw [execDecBlk_eq, execDecBlk_eq, hdin]
  split
  · exact .of_raise _ _
  · exact .of_noOutput _ rfl

/-- The lowest failing index depends on the check below the bound only. -/
theorem firstBad_congr {n : Nat} {f g : Nat → Bool} (h : ∀ i < n, f i = g i) : firstBad n f = firstBad n g := by
  unfold firstBad
  exact List.find?_congr fun i hi => by rw [h i (List.mem_range.1 hi)]

section streams
variable {s u : State} (hin : u.cfg.maxInLen = s.cfg.maxInLen) (hout : u.cfg.maxOutLen = s.cfg.maxOutLen)
  (hlen : u.latch.inLen = s.latch.inLen)

include hin hlen in
/-- The stream exists in both IN buffers or in neither. -/
theorem stream_inRange_iff : u.cfg.InRange 0 u.latch.inLen ↔ s.cfg.InRange 0 s.latch.inLen := by
  simp only [Config.InRange, hin, hlen]

include hin hout hlen

/-- ENC_STR reads L_IN_LEN and, when the length is lawful, that many bytes of IN (20_memory.md R39, R45). -/
theorem execEncStr_alike
    (hbytes : s.latch.inLen % 5 = 0 → ∀ a < s.latch.inLen, u.inByte a = s.inByte a) :
    AnswerAlike s u (execEncStr s) (execEncStr u) := by
  by_cases h5 : s.latch.inLen % 5 = 0
  · by_cases hr : s.cfg.InRange 0 s.latch.inLen
    · rw [execEncStr_stream h5 hr, execEncStr_stream (hlen ▸ h5) ((stream_inRange_iff hin hlen).2 hr), hlen,
        encodeStream_congr (par' := s.cfg.par) h5 (hbytes h5)]
      exact .of_commitStream hout _
    · rw [execEncStr_absent h5 hr, execEncStr_absent (hlen ▸ h5) (mt (stream_inRange_iff hin hlen).1 hr)]
      exact .fault _
  · rw [execEncStr_badLength h5, execEncStr_badLength (hlen ▸ h5)]
    exact .of_raise _ _

/-- DEC_STR reads L_IN_LEN and, when the length is lawful, that many bytes of IN (20_memory.md R39, R45). -/
theorem execDecStr_alike
    (hbytes : s.latch.inLen % 8 = 0 → ∀ a < s.latch.inLen, u.inByte a = s.inByte a) :
    AnswerAlike s u (execDecStr s) (execDecStr u) := by
  by_cases h8 : s.latch.inLen % 8 = 0
  · have h8u : u.latch.inLen % 8 = 0 := hlen ▸ h8
    by_cases hr : s.cfg.InRange 0 s.latch.inLen
    · have hru := (stream_inRange_iff hin hlen).2 hr
      have hbad : firstBad u.latch.inLen (fun i => (rmap (u.inByte i)).valid) =
          firstBad s.latch.inLen (fun i => (rmap (s.inByte i)).valid) := by
        rw [hlen]
        exact firstBad_congr fun a ha => by rw [hbytes h8 a ha]
      cases hp : firstBad s.latch.inLen (fun i => (rmap (s.inByte i)).valid) with
      | some p =>
        rw [execDecStr_badByte h8 hr hp, execDecStr_badByte h8u hru (hbad.trans hp)]
        exact .of_raise _ _
      | none =>
        rw [execDecStr_stream h8 hr hp, execDecStr_stream h8u hru (hbad.trans hp), hlen,
          decodeStream_congr (par' := s.cfg.par) h8 (hbytes h8)]
        exact .of_commitStream hout _
    · rw [execDecStr_absent h8 hr, execDecStr_absent h8u (mt (stream_inRange_iff hin hlen).1 hr)]
      exact .fault _
  · rw [execDecStr_badLength h8, execDecStr_badLength (hlen ▸ h8)]
    exact .of_raise _ _

/-- No command's answer depends on anything but the sizes of the buffers, L_DIN, L_IN_LEN and IN. -/
theorem exec_alike (i : Instr) (hdin : u.latch.din = s.latch.din) (hbytes : ∀ a, u.inByte a = s.inByte a) :
    AnswerAlike s u (exec i s) (exec i u) := by
  cases i with
  | encBlk => exact execEncBlk_alike hdin
  | decBlk => exact execDecBlk_alike hdin
  | encStr => exact execEncStr_alike hin hout hlen fun _ a _ => hbytes a
  | decStr => exact execDecStr_alike hin hout hlen fun _ a _ => hbytes a

end streams

/-- A change `f` of the state that goes through a command's writes goes through the command, once both states get one
answer. -/
theorem AnswerAlike.eq_mapNext {f : State → State} {s : State} {o p : Host.Outcome State Fault Refusal}
    (h : AnswerAlike s (f s) o p)
    (hf : ∀ bs r, ((f s).memWriteOut 0 bs).respond r = f ((s.memWriteOut 0 bs).respond r)) : p = mapNext f o := by
  cases h with
  | respond r bs _ => exact congrArg Host.Outcome.next (hf bs r)
  | fault e => rfl

/-- Bytes written at the start of OUT read the same whatever state they were written to. -/
theorem outByte_memWriteOut_congr {s u : State} {bs : List Byte} {a : Nat} (ha : a < bs.length) :
    (u.memWriteOut 0 bs).outByte a = (s.memWriteOut 0 bs).outByte a := by
  rw [outByte_memWriteOut, outByte_memWriteOut, dif_pos ⟨Nat.zero_le a, ha⟩, dif_pos ⟨Nat.zero_le a, ha⟩]

/-- One answer shows the host one response and the same bytes of OUT below OUT_LEN, where LEN_W is the same. -/
theorem AnswerAlike.same_result {s u t : State} {o p : Host.Outcome State Fault Refusal} (h : AnswerAlike s u o p)
    (hcfg : u.cfg = s.cfg) (ho : o = .next t) :
    ∃ v, p = .next v ∧ v.resp = t.resp ∧ ∀ a < t.resp.outLen, v.outByte a = t.outByte a := by
  cases h with
  | respond r bs hr =>
    obtain rfl := Host.Outcome.next.inj ho
    refine ⟨_, rfl, ?_, fun a ha => outByte_memWriteOut_congr ?_⟩
    · simp [State.respond, State.forgetLatch, hcfg]
    · calc a < toLen s.cfg r.outLen := ha
        _ ≤ r.outLen := toLen_le _ _
        _ = bs.length := hr
  | fault e => cases ho

/-- Settles O25: PAR is no operand of any command, because batches of any size list the chunks in one order, and no
write of a command reads it. -/
theorem parallelismUnobservable : Obligations.ParallelismUnobservable := by
  intro i s p
  have h : AnswerAlike s (s.withPar p) (exec i s) (exec i (s.withPar p)) :=
    exec_alike (s := s) (u := s.withPar p) rfl rfl rfl i rfl fun _ => rfl
  exact h.eq_mapNext fun _ _ => rfl

/-- Settles O31: states that agree on the operands get one answer, and OUT_LEN counts only bytes of that answer. -/
theorem commandsKeepNoHistory : Obligations.CommandsKeepNoHistory := by
  intro i s u t hcfg hdin hlen hbytes ht
  have h : AnswerAlike s u (exec i s) (exec i u) :=
    exec_alike (congrArg _ hcfg) (congrArg _ hcfg) hlen i hdin hbytes
  exact h.same_result hcfg ht

end Sys2Proof.Machine
end

section
/-! PROOFS. Every step keeps the invariant: one lemma per update of the state, then one per agent's move, then the step
(10_state.md R23, R24, R34, R35; 60_exceptions.md R93, R97). -/

namespace Sys2Proof.Machine

namespace State.Inv

variable {s : State} (h : s.Inv)

include h

/-- The invariant says nothing of the schedule, the host's replies and the count of draws. -/
theorem withPendingGotDraws (p : List Event) (g : List Reply) (d : Nat) :
    State.Inv { s with pending := p, got := g, draws := d } := { h with }

/-- A host write to IN of bytes that exist. -/
theorem memWriteIn {i : Nat} {bs : List Byte} (hr : s.cfg.InRange i bs.length) : (s.memWriteIn i bs).Inv :=
  { h with
    inWf := wf_setMany i bs h.inWf
    inBelow := below_setMany h.inBelow hr }

/-- A stream's output stored in OUT, of bytes that exist. -/
theorem memWriteOut {i : Nat} {bs : List Byte} (hr : s.cfg.OutRange i bs.length) : (s.memWriteOut i bs).Inv :=
  { h with
    outWf := wf_setMany i bs h.outWf
    outBelow := below_setMany h.outBelow hr }

/-- A host write of a command register. -/
theorem withCmd {c : Command} (hc : s.cfg.FitsLen c.inLen) : State.Inv { s with cmd := c } := { h with inLenFits := hc }

/-- Acceptance of a START that keeps the length duty (70_reset_and_hazards.md R118). -/
theorem accept (hd : s.cmd.inLen ≤ s.cfg.maxInLen) : s.accept.Inv :=
  { h with
    latchFits := h.inLenFits
    lenDuty := fun _ => hd
    handshake := fun _ => rfl
    afterReset := fun hb => nomatch hb }

/-- Completion with a response that fits OUT and keeps R93 and R97. Narrowing to LEN_W bits only makes a length
smaller, and keeps a 0. -/
theorem respond {r : Response} (hout : r.outLen ≤ s.cfg.maxOutLen) (h3 : r.status ≠ 3)
    (herr : r.status ≠ 0 → r.dout = 0 ∧ r.outLen = 0) (hpos : r.status ≠ 2 → r.errPos = 0 ∧ r.errMask = 0) :
    (s.respond r).Inv :=
  { h with
    latchFits := freeLen_lt _ _
    errPosFits := toLen_lt _ _
    outLenFits := (toLen_le _ _).trans hout
    lenDuty := fun hb => nomatch hb
    handshake := fun hb => nomatch hb
    afterReset := fun _ hv => nomatch hv
    noReserved := h3
    errorNoOutput := fun hs => by
      obtain ⟨hd, hn⟩ := herr hs
      exact ⟨hd, by rw [respond_outLen, hn, toLen_zero]⟩
    onlyBadCharPos := fun hs => by
      obtain ⟨hp, hm⟩ := hpos hs
      exact ⟨by rw [respond_errPos, hp, toLen_zero], hm⟩ }

/-- A reset: OUT is kept or forgotten, the registers take their reset values. -/
theorem resetNow : s.resetNow.Inv where
  cfgOk := by rw [resetNow_cfg]; exact h.cfgOk
  inWf := by rw [resetNow_inBuf]; exact h.inWf
  outWf := by
    rw [resetNow_outBuf]
    split
    · exact List.Pairwise.nil
    · exact h.outWf
  inBelow := by rw [resetNow_inBuf, resetNow_cfg]; exact h.inBelow
  outBelow := by
    rw [resetNow_outBuf, resetNow_cfg]
    split
    · exact fun _ hc => nomatch hc
    · exact h.outBelow
  inLenFits := Nat.two_pow_pos _
  latchFits := by rw [resetNow_cfg, resetNow_latch_inLen]; exact freeLen_lt _ _
  errPosFits := Nat.two_pow_pos _
  outLenFits := Nat.zero_le _
  lenDuty := fun hb => nomatch hb
  handshake := fun hb => nomatch hb
  afterReset := fun _ _ => rfl
  noReserved := by rw [resetNow_resp]; decide
  errorNoOutput := fun _ => ⟨rfl, rfl⟩
  onlyBadCharPos := fun _ => ⟨rfl, rfl⟩

variable {t : State}

/-- A command keeps the invariant: it stores its output in OUT and then responds. -/
theorem after_exec {i : Instr} (ht : exec i s = .next t) : t.Inv := by
  obtain ⟨r, bs, rfl, hlen, hr, h3, herr, hpos⟩ := exec_next ht
  refine (h.memWriteOut hr).respond ?_ h3 (fun hs => ?_) hpos
  · have hfit : bs.length ≤ s.cfg.maxOutLen := by simp only [Config.OutRange] at hr; omega
    exact hlen.trans_le hfit
  · obtain ⟨hd, rfl⟩ := herr hs
    exact ⟨hd, hlen⟩

theorem after_coreMove (ht : coreMove s = .next t) : t.Inv := by
  obtain ⟨-, ht⟩ | ⟨-, rfl⟩ := coreMove_next ht
  · exact h.after_exec ht
  · exact h

theorem after_pulseStart (ht : s.pulseStart = .next t) : t.Inv := by
  obtain ⟨-, rfl⟩ | ⟨-, hd, rfl⟩ := pulseStart_next ht
  · exact h
  · exact h.accept hd

theorem after_hostMove {a : Action} (ht : hostMove a s = .next t) : t.Inv := by
  by_cases ha : a = .start
  · subst ha
    exact h.after_pulseStart ht
  · obtain ⟨i, bs, -, hr, rfl⟩ | ⟨c, hc, rfl⟩ | ⟨g, d, rfl⟩ := hostMove_next ha ht
    · exact h.memWriteIn hr
    · exact h.withCmd (hc h.inLenFits)
    · exact h.withPendingGotDraws _ g d

theorem after_takeEvent {e : Event} (ht : takeEvent e s = .next t) : t.Inv := by
  obtain ⟨p, ht⟩ | ⟨u, hu, ht⟩ | ⟨a, ht⟩ | rfl := takeEvent_next ht
  · exact (h.withPendingGotDraws p _ _).after_coreMove ht
  · exact (h.after_coreMove hu).after_pulseStart ht
  · exact h.after_hostMove ht
  · exact h.resetNow

end State.Inv

/-- Settles O55: whichever agent moves next, its move keeps the invariant. -/
theorem stepKeepsInvariant : Obligations.StepKeepsInvariant := by
  intro s t h ht
  cases hp : s.pending with
  | nil => exact h.after_coreMove ((step_nil h.noReserved hp).symm.trans ht)
  | cons e rest => exact (h.withPendingGotDraws rest _ _).after_takeEvent ((step_cons h.noReserved hp).symm.trans ht)

end Sys2Proof.Machine
end

section
/-! PROOFS. The host's moves, one equation per case: START, the reads while BUSY = 0 and while BUSY = 1, and the event
that makes the move (10_state.md R22, R33; 30_encoding.md R68). -/

namespace Sys2Proof.Machine

variable {s : State}

/-- START while BUSY = 1 is ignored (R22). -/
theorem pulseStart_busy (hb : s.busy = true) : s.pulseStart = .next s := if_pos hb

/-- START while BUSY = 0 with a length the duty of R118 allows is accepted (R22). -/
theorem pulseStart_accepted (hb : s.busy = false) (hd : s.cmd.inLen ≤ s.cfg.maxInLen) :
    s.pulseStart = .next s.accept :=
  (if_neg (Bool.eq_false_iff.1 hb)).trans (if_neg (Nat.not_lt.2 hd))

/-- START while BUSY = 0 with a longer stream is refused (70_reset_and_hazards.md R118). -/
theorem pulseStart_tooLong (hb : s.busy = false) (hd : s.cfg.maxInLen < s.cmd.inLen) :
    s.pulseStart = .refused .startLenTooLong :=
  (if_neg (Bool.eq_false_iff.1 hb)).trans (if_pos hd)

theorem readResponse_idle (hb : s.busy = false) (w : Nat) (f : Field) (v : Nat) :
    s.readResponse w f v = s.reply f v := if_neg (Bool.eq_false_iff.1 hb)

theorem readResponse_busy (hb : s.busy = true) (w : Nat) (f : Field) (v : Nat) :
    s.readResponse w f v = s.drawField w f := if_pos hb

section readOut

variable {i n : Nat}

theorem readOut_absent (hr : ¬ s.cfg.OutRange i n) : s.readOut i n = .fault .outIndexAbsent := if_pos hr

theorem readOut_idle (hb : s.busy = false) (hr : s.cfg.OutRange i n) :
    s.readOut i n = .next { s with got := s.got ++ [.bytes i (s.outBytes i n)] } :=
  (if_neg (not_not.2 hr)).trans (if_neg (Bool.eq_false_iff.1 hb))

theorem readOut_busy (hb : s.busy = true) (hr : s.cfg.OutRange i n) :
    s.readOut i n =
      .next
        { s with
          draws := s.draws + n
          got := s.got ++ [.bytes i ((List.range n).map fun k => Config.freeBits 8 (s.draws + k))] } :=
  (if_neg (not_not.2 hr)).trans (if_pos hb)

@[simp] theorem length_outBytes (s : State) (i n : Nat) : (s.outBytes i n).length = n := by simp [State.outBytes]

theorem outBytes_getElem? (s : State) (i : Nat) {n k : Nat} (hk : k < n) :
    (s.outBytes i n)[k]? = some (s.outByte (i + k)) := by
  simp [State.outBytes, List.getElem?_range hk]

/-- The cut of log 13 leaves only bytes that OUT has. -/
theorem drawnCount_outRange (s : State) (i : Nat) : s.cfg.OutRange i (drawnCount s i) := by
  have hcut : drawnCount s i ≤ s.cfg.maxOutLen - i := Nat.min_le_right _ _
  simp only [Config.OutRange]
  omega

theorem hostMove_rdOut_outLen_idle (hb : s.busy = false) (i : Nat) :
    hostMove (.rdOut i .outLen) s = s.readOut i s.resp.outLen := if_neg (Bool.eq_false_iff.1 hb)

theorem hostMove_rdOut_outLen_busy (hb : s.busy = true) (i : Nat) :
    hostMove (.rdOut i .outLen) s =
      .next
        { s with
          draws := s.draws + 1 + drawnCount s i
          got := s.got ++
            [.bytes i ((List.range (drawnCount s i)).map fun k => Config.freeBits 8 (s.draws + 1 + k))] } :=
  (if_pos hb).trans (readOut_busy hb (drawnCount_outRange s i))

end readOut

/-- A host move that is the next event is made; a `wait` is, once BUSY = 0. -/
theorem takeEvent_host {a : Action} (h : a ≠ .wait ∨ s.busy = false) : takeEvent (.host a) s = hostMove a s := by
  cases a with
  | wait => exact if_neg (Bool.eq_false_iff.1 (h.resolve_left (· rfl)))
  | writeIn | wrOp | wrDin | wrInLen | start | rd | rdOut => rfl

theorem coreMove_idle (hb : s.busy = false) : coreMove s = .next s := if_neg (Bool.eq_false_iff.1 hb)

/-- A reset while BUSY = 0 keeps OUT: no stream command is in flight (70_reset_and_hazards.md R112). -/
theorem resetNow_idle (hb : s.busy = false) :
    s.resetNow = State.forgetLatch
      { s with cmd := Command.zero, busy := false, respValid := false, resp := Response.zero } := by
  have hs : s.streamInFlight = false := by simp [State.streamInFlight, hb]
  simp [State.resetNow, hs]

theorem step_host {a : Action} {rest : List Event} (h3 : s.resp.status ≠ 3) (hp : s.pending = .host a :: rest)
    (h : a ≠ .wait ∨ s.busy = false) : step s = hostMove a { s with pending := rest } :=
  (step_cons h3 hp).trans (takeEvent_host h)

/-- Settles O32, by the two ways a START goes on. -/
theorem startHandshake : Obligations.StartHandshake := by
  refine ⟨fun s rest h3 hp hb hd => ?_, fun s rest h3 hp hb => ?_, fun s rest h3 hp => ?_, resetNow_busy⟩
  · exact (step_host h3 hp (.inr hb)).trans (pulseStart_accepted hb hd)
  · exact (step_host h3 hp (.inl nofun)).trans (pulseStart_busy hb)
  · exact step_host h3 hp (.inl nofun)

/-- Settles O33: OP, DIN and IN_LEN are no operands of any command, and no write of a command touches them. -/
theorem commandRunsFromLatches : Obligations.CommandRunsFromLatches := by
  intro i s c
  have h : AnswerAlike s { s with cmd := c } (exec i s) (exec i { s with cmd := c }) :=
    exec_alike (s := s) (u := { s with cmd := c }) rfl rfl rfl i rfl fun _ => rfl
  exact h.eq_mapNext (f := fun t => { t with cmd := c }) fun _ _ => rfl

/-- Settles O34: acceptance, `respond` and reset are the only writes of BUSY. -/
theorem busyFromAcceptanceToCompletion : Obligations.BusyFromAcceptanceToCompletion := by
  refine ⟨fun s t hb ht => ?_, fun i s t ht => ?_, fun a s t ha ht => ?_, resetNow_busy, rfl⟩
  · obtain ⟨hb', -⟩ | ⟨-, -, rfl⟩ := pulseStart_next ht
    · exact absurd hb' (by simp [hb])
    · exact ⟨accept_busy s, accept_respValid s⟩
  · obtain ⟨r, bs, rfl, -⟩ := exec_next ht
    exact ⟨respond_busy _ r, respond_respValid _ r⟩
  · obtain ⟨i, bs, -, -, rfl⟩ | ⟨c, -, rfl⟩ | ⟨g, d, rfl⟩ := hostMove_next ha ht
    · exact ⟨memWriteIn_busy s i bs, memWriteIn_respValid s i bs⟩
    · exact ⟨rfl, rfl⟩
    · exact ⟨rfl, rfl⟩

/-- Settles O39, one arm of the host's moves each. -/
theorem hostWritesCommandRegisters : Obligations.HostWritesCommandRegisters :=
  ⟨fun _ _ => rfl, fun _ _ => rfl, fun _ _ hv => if_pos hv, fun _ _ hv => if_neg hv⟩

/-- Settles O41: these fields' reads do not ask for BUSY. -/
theorem statusAndCommandReadsAnyTime : Obligations.StatusAndCommandReadsAnyTime :=
  fun _ => ⟨rfl, rfl, rfl, rfl, rfl, rfl⟩

/-- Settles O40: while BUSY = 0 a read of a response field replies with the field, and a read of OUT with its bytes. -/
theorem idleReadsShowFields : Obligations.IdleReadsShowFields := by
  intro s hb
  have field : ∀ w f v, Host.Outcome.next (s.readResponse w f v) =
      (.next { s with got := s.got ++ [.field f v] } : Host.Outcome State Fault Refusal) :=
    fun w f v => congrArg Host.Outcome.next (readResponse_idle hb w f v)
  have bytes : ∀ i n, s.cfg.OutRange i n →
      ∃ bs, s.readOut i n = .next { s with got := s.got ++ [.bytes i bs] } ∧
        bs.length = n ∧ ∀ k < n, bs[k]? = some (s.outByte (i + k)) :=
    fun i n hr => ⟨_, readOut_idle hb hr, length_outBytes s i n, fun _ hk => outBytes_getElem? s i hk⟩
  refine ⟨field _ _ _, field _ _ _, field _ _ _, field _ _ _, field _ _ _, ?_, rfl, bytes, fun i hr => ?_⟩
  · simp [hostMove, State.readField, hb]
  · rw [hostMove_rdOut_outLen_idle hb]
    exact bytes i _ hr

end Sys2Proof.Machine
end

section
/-! PROOFS. What the step does not show and does not use: the response and OUT while BUSY = 1 (10_state.md R33), the
latches while BUSY = 0 (R32). -/

namespace Sys2Proof.Machine

/-- A state with another response and another OUT. -/
def State.withOutput (s : State) (r : Response) (m : Memory) (e : Nat) : State :=
  { s with resp := r, outBuf := m, outEpoch := e }

section busy

variable {s : State} (hb : s.busy = true) (r : Response) (m : Memory) (e : Nat)

include hb

/-- Whatever value the field holds in either state, both reads make the same draw. -/
theorem readResponse_withOutput_busy (w : Nat) (f : Field) (v v' : Nat) :
    (s.withOutput r m e).readResponse w f v = (s.readResponse w f v').withOutput r m e := by
  rw [readResponse_busy hb]
  exact readResponse_busy (s := s.withOutput r m e) hb w f v

theorem readOut_withOutput_busy (i n : Nat) :
    (s.withOutput r m e).readOut i n = mapNext (·.withOutput r m e) (s.readOut i n) := by
  by_cases hr : s.cfg.OutRange i n
  · rw [readOut_busy hb hr]
    exact readOut_busy (s := s.withOutput r m e) hb hr
  · rw [readOut_absent hr]
    exact readOut_absent (s := s.withOutput r m e) hr

/-- A read of the response or of OUT while BUSY = 1 gives the same whatever they hold. -/
theorem hostMove_withOutput_busy {a : Action} (ha : a.readsResponse = true) :
    hostMove a (s.withOutput r m e) = mapNext (·.withOutput r m e) (hostMove a s) := by
  cases a with
  | rd f =>
    cases f with
    | op | din | inLen | start | busy | respValid => cases ha
    | status | dout | errMask | errPos | outLen =>
      exact congrArg Host.Outcome.next (readResponse_withOutput_busy hb r m e _ _ _ _)
  | rdOut i n =>
    cases n with
    | lit n => exact readOut_withOutput_busy hb r m e i n
    | outLen =>
      rw [hostMove_rdOut_outLen_busy hb]
      exact hostMove_rdOut_outLen_busy (s := s.withOutput r m e) hb i
  | writeIn | wrOp | wrDin | wrInLen | start | wait => cases ha

end busy

/-- Settles O42: while BUSY = 1 every such read is draws, and what it draws does not ask for the response or OUT. -/
theorem busyReadsShowNothing : Obligations.BusyReadsShowNothing := by
  refine ⟨fun s a r m e hb ha => ?_, fun s f w hb hf => ?_, fun s i n hb hr => ?_, fun s i hb => ?_⟩
  · exact hostMove_withOutput_busy hb r m e ha
  · simp only [List.mem_cons, Prod.mk.injEq, List.not_mem_nil, or_false] at hf
    obtain ⟨rfl, rfl⟩ | ⟨rfl, rfl⟩ | ⟨rfl, rfl⟩ | ⟨rfl, rfl⟩ | ⟨rfl, rfl⟩ := hf <;>
      exact congrArg Host.Outcome.next (readResponse_busy hb _ _ _)
  · exact readOut_busy hb hr
  · exact ⟨drawnCount s i, rfl, hostMove_rdOut_outLen_busy hb i⟩

/-- A state with other values in the latches. -/
def State.withLatch (s : State) (l : Command) : State := { s with latch := l }

/-- From `s` the move `m` uses no latch: with other values in the latches it gives the same outcome but for the
latches. -/
def LatchUnused (m : State → Host.Outcome State Fault Refusal) (s : State) : Prop :=
  ∀ l, ∃ l' : State → Command, m (s.withLatch l) = mapNext (fun t => t.withLatch (l' t)) (m s)

section latches

variable {m : State → Host.Outcome State Fault Refusal} {s : State}

/-- A move that leaves the latches alone. -/
theorem LatchUnused.of_keeps (h : ∀ l, m (s.withLatch l) = mapNext (·.withLatch l) (m s)) :
    LatchUnused m s := fun l => ⟨fun _ => l, h l⟩

/-- A move that overwrites the latches, or stops. -/
theorem LatchUnused.of_overwrites (h : ∀ l, m (s.withLatch l) = m s) : LatchUnused m s :=
  fun l => ⟨State.latch, by rw [h l]; cases m s <;> rfl⟩

theorem readResponse_withLatch (l : Command) (w : Nat) (f : Field) (v : Nat) :
    (s.withLatch l).readResponse w f v = (s.readResponse w f v).withLatch l := by
  unfold State.readResponse
  rw [apply_ite (State.withLatch · l)]
  rfl

theorem readField_withLatch (l : Command) (f : Field) :
    (s.withLatch l).readField f = (s.readField f).withLatch l := by
  cases f with
  | op | din | inLen | start | busy | respValid => rfl
  | status | dout | errMask | errPos | outLen => exact readResponse_withLatch l _ _ _

theorem readOut_withLatch (l : Command) (i n : Nat) :
    (s.withLatch l).readOut i n = mapNext (·.withLatch l) (s.readOut i n) := by
  unfold State.readOut
  rw [apply_ite (mapNext _), apply_ite (mapNext _)]
  rfl

/-- No host move but START reads or writes a latch. -/
theorem hostMove_withLatch {a : Action} (ha : a ≠ .start) (l : Command) :
    hostMove a (s.withLatch l) = mapNext (·.withLatch l) (hostMove a s) := by
  cases a with
  | writeIn i bs =>
    simp only [hostMove]
    rw [apply_ite (mapNext _), apply_ite (mapNext _)]
    rfl
  | wrInLen v =>
    simp only [hostMove]
    rw [apply_ite (mapNext _)]
    rfl
  | start => exact absurd rfl ha
  | wrOp | wrDin | wait => rfl
  | rd f => exact congrArg Host.Outcome.next (readField_withLatch l f)
  | rdOut i n =>
    cases n with
    | lit n => exact readOut_withLatch l i n
    | outLen =>
      simp only [hostMove]
      rw [apply_ite (mapNext _), ← readOut_withLatch, ← readOut_withLatch]
      rfl

section idle

variable (hb : s.busy = false)

include hb

/-- Acceptance overwrites all three latches, and a START too long stops. -/
theorem pulseStart_latchUnused : LatchUnused State.pulseStart s := .of_overwrites fun l => by
  by_cases hd : s.cmd.inLen ≤ s.cfg.maxInLen
  · rw [pulseStart_accepted hb hd]
    exact pulseStart_accepted (s := s.withLatch l) hb hd
  · rw [pulseStart_tooLong hb (Nat.not_le.1 hd)]
    exact pulseStart_tooLong (s := s.withLatch l) hb (Nat.not_le.1 hd)

theorem hostMove_latchUnused (a : Action) : LatchUnused (hostMove a) s := by
  by_cases ha : a = .start
  · subst ha
    exact pulseStart_latchUnused hb
  · exact .of_keeps (hostMove_withLatch ha)

theorem coreMove_latchUnused : LatchUnused coreMove s := .of_keeps fun l => by
  rw [coreMove_idle hb]
  exact coreMove_idle (s := s.withLatch l) hb

/-- A reset reads the latched OP only to ask whether a stream command is in flight. -/
theorem resetNow_withLatch (l : Command) : (s.withLatch l).resetNow = s.resetNow := by
  rw [resetNow_idle hb]
  exact resetNow_idle (s := s.withLatch l) hb

theorem takeEvent_latchUnused (e : Event) : LatchUnused (takeEvent e) s := by
  cases e with
  | host a =>
    intro l
    rw [takeEvent_host (.inr hb), takeEvent_host (s := s.withLatch l) (.inr hb)]
    exact hostMove_latchUnused hb a l
  | core => exact coreMove_latchUnused hb
  | coreStart =>
    intro l
    simp only [takeEvent]
    rw [coreMove_idle hb, coreMove_idle (s := s.withLatch l) hb]
    exact pulseStart_latchUnused hb l
  | reset => exact .of_overwrites fun l => congrArg Host.Outcome.next (resetNow_withLatch hb l)

end idle

/-- With BUSY = 0 neither the next event nor the fault of STATUS 3 uses a latch. -/
theorem step_latchUnused (hb : s.busy = false) : LatchUnused step s := by
  by_cases h3 : s.resp.status = 3
  · exact .of_overwrites fun l => (if_pos h3).trans (if_pos h3).symm
  · intro l
    cases hp : s.pending with
    | nil =>
      rw [step_nil h3 hp, step_nil (s := s.withLatch l) h3 hp]
      exact coreMove_latchUnused hb l
    | cons e rest =>
      rw [step_cons h3 hp, step_cons (s := s.withLatch l) h3 hp]
      exact takeEvent_latchUnused (s := { s with pending := rest }) hb e l

end latches

/-- Settles O43: no event uses a latch before a START has overwritten all three. -/
theorem latchesUnusedWhileIdle : Obligations.LatchesUnusedWhileIdle := fun _ l hb => step_latchUnused hb l

end Sys2Proof.Machine
end

section
/-! PROOFS. RLUT is the reverse of ALPHABET (10_state.md R31, 30_encoding.md R63, 40_block_ops.md R73). -/

namespace Sys2Proof.Machine

/-- RMAP undoes MAP. -/
@[simp] theorem rmap_map (g : Group) : rmap (map g) = { valid := true, idx := g } := by
  revert g
  decide

/-- MAP undoes RMAP wherever RMAP is valid. -/
theorem map_idx_rmap {c : Byte} (h : (rmap c).valid = true) : map (rmap c).idx = c := by
  revert c
  decide

/-- An entry of RLUT that is not valid is {0, 0}. -/
theorem rmap_of_not_valid {c : Byte} (h : (rmap c).valid = false) : rmap c = { valid := false, idx := 0 } := by
  unfold rmap rlut at h ⊢
  split at h
  · cases h
  · split at h
    · cases h
    · simp [*]

/-- RMAP is valid exactly on the symbols. -/
theorem rmap_valid_iff {c : Byte} : (rmap c).valid = true ↔ IsSymbol c := by
  constructor
  · exact fun h => ⟨_, map_idx_rmap h⟩
  · rintro ⟨g, rfl⟩
    rw [rmap_map]

/-- Settles O5: RMAP and MAP undo each other, and every entry that is not valid is {0, 0}. -/
theorem reverseTableInvertsAlphabet : Obligations.ReverseTableInvertsAlphabet := by
  refine fun c => ⟨rmap_valid_iff, fun g hg => hg ▸ rmap_map g, fun hc => rmap_of_not_valid ?_⟩
  exact Bool.eq_false_iff.2 (mt rmap_valid_iff.1 hc)

end Sys2Proof.Machine
end

section
/-! PROOFS. The byte lanes of the 64-bit operands and results (20_memory.md R41; 30_encoding.md R59, R60). -/

namespace Sys2Proof.Machine

/-- The five raw bytes are adjacent fields of DIN, so together they are DIN[39:0]. -/
theorem rawOperand_eq (d : Word) : rawOperand d = d.extractLsb' 0 40 := by
  simp only [rawOperand, bytesTo40, rawByte]
  repeat rw [BitVec.extractLsb'_append_extractLsb'_eq_extractLsb']
  all_goals rfl

/-- Symbol k of a packed word, bit by bit: the bit lies above the 7 - k lowest lanes and inside the next. -/
@[simp] theorem symbol_packSymbols (c : Lane → Byte) (k : Lane) : symbol (packSymbols c) k = c k := by
  refine BitVec.eq_of_getLsbD_eq fun j hj => ?_
  unfold symbol packSymbols
  rw [BitVec.getLsbD_extractLsb']
  repeat rw [BitVec.getLsbD_append]
  match k with
  | 0 | 1 | 2 | 3 | 4 | 5 | 6 | 7 => grind

/-- The eight symbols of a word are adjacent fields of it, so packed again they are the word. -/
@[simp] theorem packSymbols_symbol (d : Word) : packSymbols (symbol d) = d := by
  simp only [packSymbols, symbol]
  repeat rw [BitVec.extractLsb'_append_extractLsb'_eq_extractLsb']
  · exact BitVec.extractLsb'_eq_self
  all_goals rfl

/-- A raw byte of a zero-extended chunk is that field of the chunk. -/
theorem rawByte_zextChunk (v : Chunk) (i : Fin 5) : rawByte (zextChunk v) i = v.extractLsb' (32 - 8 * i.val) 8 :=
  BitVec.extractLsb'_setWidth_of_le (by omega)

/-- BYTES_OF_40 lists the raw bytes of the zero-extended chunk. -/
theorem bytesOf40_getElem? (v : Chunk) (i : Fin 5) : (bytesOf40 v)[i.val]? = some (rawByte (zextChunk v) i) := by
  rw [rawByte_zextChunk]
  match i with
  | 0 | 1 | 2 | 3 | 4 => rfl

/-- A zero-extended chunk has no bit above its 40. -/
theorem zextChunk_high (v : Chunk) : (zextChunk v).extractLsb' 40 24 = 0 := by
  refine BitVec.eq_of_getLsbD_eq fun j _ => ?_
  simp [zextChunk]

/-- Settles O8, one lemma per placement. -/
theorem lanesAreBigEndian : Obligations.LanesAreBigEndian :=
  ⟨rawOperand_eq, symbol_packSymbols, packSymbols_symbol, bytesOf40_getElem?, zextChunk_high⟩

end Sys2Proof.Machine
end

section
/-! PROOFS. What the commands leave unchanged (20_memory.md R37, R38, R40; 60_exceptions.md R98) and which bytes of IN they
do not read (R39, R45). -/

namespace Sys2Proof.Machine

variable {s t : State} {i : Instr}

/-- Storing output in OUT and responding touch nothing else. -/
theorem untouched_respond (s : State) (bs : List Byte) (r : Response) :
    s.Untouched ((s.memWriteOut 0 bs).respond r) where
  cfg := rfl
  cmd := rfl
  inBytes _ := rfl
  pending := rfl
  got := rfl
  outEpoch := rfl

/-- No command writes anything but OUT, the response and the latches. -/
theorem exec_untouched (h : exec i s = .next t) : s.Untouched t := by
  obtain ⟨r, bs, rfl, -⟩ := exec_next h
  exact untouched_respond s bs r

/-- A block command responds and stores no byte. -/
theorem exec_block_next (hi : i = .encBlk ∨ i = .decBlk) (h : exec i s = .next t) : ∃ r, t = s.respond r := by
  obtain rfl | rfl := hi
  · exact ⟨_, (Host.Outcome.next.inj h).symm⟩
  · rw [exec, execDecBlk_eq, Host.Outcome.next.injEq] at h
    subst h
    split
    · exact ⟨_, rfl⟩
    · exact ⟨_, rfl⟩

/-- Settles O14: a block command is a response, and a response reaches no byte of OUT. -/
theorem blockCommandsFrame : Obligations.BlockCommandsFrame := by
  intro i s t hi h
  obtain ⟨r, rfl⟩ := exec_block_next hi h
  exact ⟨exec_untouched h, respond_outByte s r⟩

/-- Bytes of OUT at or above the stored output are as before. -/
theorem outByte_memWriteOut_of_le {bs : List Byte} {a : Nat} (ha : bs.length ≤ a) :
    (s.memWriteOut 0 bs).outByte a = s.outByte a := by
  rw [outByte_memWriteOut, dif_neg (by omega)]

/-- A stream that succeeds has STATUS 0, so the bytes of OUT its frame speaks of are those above the stored output. -/
theorem outByte_stream_commit {bs : List Byte} {n a : Nat}
    (ha : ((s.memWriteOut 0 bs).commit 0 n).resp.status ≠ 0 ∨ bs.length ≤ a) :
    ((s.memWriteOut 0 bs).commit 0 n).outByte a = s.outByte a :=
  outByte_memWriteOut_of_le (ha.resolve_left (· rfl))

/-- Settles O19: an error stores nothing, a success stores its output at the start of OUT. -/
theorem streamCommandsFrame : Obligations.StreamCommandsFrame := by
  refine ⟨fun s t h => ⟨exec_untouched h, fun a ha => ?_⟩, fun s t h => ⟨exec_untouched h, fun a ha => ?_⟩⟩
  · obtain ⟨-, rfl⟩ | ⟨-, -, -, rfl⟩ := execEncStr_next h
    · exact respond_outByte s _ a
    · exact outByte_stream_commit (by rwa [length_encodeStream])
  · obtain ⟨-, rfl⟩ | ⟨p, -, -, -, rfl⟩ | ⟨-, -, -, -, rfl⟩ := execDecStr_next h
    · exact respond_outByte s _ a
    · exact respond_outByte s _ a
    · exact outByte_stream_commit (by rwa [length_decodeStream])

/-- One answer to two states that differ in IN: the same outcome, each with its own IN, because no write of a command
touches IN. -/
theorem AnswerAlike.eq_mapNext_withIn {m : Memory} {o p : Host.Outcome State Fault Refusal}
    (h : AnswerAlike s { s with inBuf := m } o p) : p = mapNext (fun t => { t with inBuf := m }) o :=
  h.eq_mapNext (f := fun t => { t with inBuf := m }) fun _ _ => rfl

/-- Settles O26: states that agree on the bytes read get one answer. -/
theorem unreadBytesDoNotMatter : Obligations.UnreadBytesDoNotMatter :=
  ⟨fun s _ hm => AnswerAlike.eq_mapNext_withIn (s := s) (execEncStr_alike rfl rfl rfl hm),
    fun s _ hm => AnswerAlike.eq_mapNext_withIn (s := s) (execDecStr_alike rfl rfl rfl hm)⟩

/-- Settles O38: a command leaves IN untouched, and the one thing a host write to IN does is that write. -/
theorem buffersAreDisjoint : Obligations.BuffersAreDisjoint := by
  refine ⟨fun _ _ _ h => (exec_untouched h).inBytes, fun i bs s t h => ?_⟩
  obtain ⟨-, -, rfl⟩ := writeIn_next h
  exact memWriteIn_outByte s i bs

end Sys2Proof.Machine
end

section
/-! PROOFS. Accesses past the end of a buffer (20_memory.md R37, R49; log 9). -/

namespace Sys2Proof.Machine

variable {s : State} {c : Config} {i n k : Nat}

/-- One index past the end of IN puts the whole access out of range. -/
theorem not_inRange_of_absent (hk : k < n) (ha : c.maxInLen ≤ i + k) : ¬ c.InRange i n :=
  fun hr => Nat.not_lt.2 ha (inRange_iff.1 hr k hk)

/-- One index past the end of OUT puts the whole access out of range. -/
theorem not_outRange_of_absent (hk : k < n) (ha : c.maxOutLen ≤ i + k) : ¬ c.OutRange i n :=
  fun hr => Nat.not_lt.2 ha (outRange_iff.1 hr k hk)

/-- A stream longer than IN is out of range: it would read IN[MAX_IN_LEN]. -/
theorem not_inRange_of_maxInLen_lt {L : Nat} (hL : c.maxInLen < L) : ¬ c.InRange 0 L :=
  not_inRange_of_absent hL (Nat.zero_add _).ge

/-- A host write to IN while BUSY = 0, past the end. -/
theorem hostMove_writeIn_absent {bs : List Byte} (hb : s.busy = false) (hr : ¬ s.cfg.InRange i bs.length) :
    hostMove (.writeIn i bs) s = .fault .inIndexAbsent :=
  (if_neg fun h => Bool.eq_false_iff.1 hb h.1).trans (if_neg hr)

/-- Settles O27: each access asks for its range first. -/
theorem absentIndicesFault : Obligations.AbsentIndicesFault := by
  refine ⟨fun s h5 hL => ?_, fun s h8 hL => ?_, fun s i bs k hb hk ha => ?_, fun s i n k hk ha => ?_,
    fun s i k hb hk ha => ?_⟩
  · exact execEncStr_absent h5 (not_inRange_of_maxInLen_lt hL)
  · exact execDecStr_absent h8 (not_inRange_of_maxInLen_lt hL)
  · exact hostMove_writeIn_absent hb (not_inRange_of_absent hk ha)
  · exact readOut_absent (not_outRange_of_absent hk ha)
  · rw [hostMove_rdOut_outLen_idle hb]
    exact readOut_absent (not_outRange_of_absent hk ha)

end Sys2Proof.Machine
end

section
/-! PROOFS. IN and OUT across a reset (70_reset_and_hazards.md R112; log 6). -/

namespace Sys2Proof.Machine

variable {s : State}

/-- A reset writes no byte of IN. -/
@[simp] theorem resetNow_inByte (s : State) (a : Nat) : s.resetNow.inByte a = s.inByte a := by
  unfold State.inByte
  rw [resetNow_inBuf]

/-- A reset with no stream command in flight writes no byte of OUT. -/
theorem resetNow_sameOut (hs : s.streamInFlight = false) : s.SameOut s.resetNow := by
  intro a
  unfold State.outByte
  rw [resetNow_outBuf, resetNow_outEpoch, hs]
  rfl

/-- GRAN is 1 exactly for the stream commands (30_encoding.md R57). -/
theorem gran_iff {op : BitVec 2} : gran op = true ↔ decode op = .encStr ∨ decode op = .decStr := by
  revert op
  decide

/-- With a block command latched no stream command is in flight. -/
theorem streamInFlight_of_block (h : decode s.latch.op = .encBlk ∨ decode s.latch.op = .decBlk) :
    s.streamInFlight = false := by
  have hg : gran s.latch.op = false := by
    rw [Bool.eq_false_iff, ne_eq, gran_iff]
    obtain h | h := h <;> simp [h]
  simp [State.streamInFlight, hg]

/-- Settles O52: OUT is forgotten only with a stream command in flight. -/
theorem resetDuringBlockKeepsBuffers : Obligations.ResetDuringBlockKeepsBuffers :=
  fun s _ h => ⟨resetNow_inByte s, resetNow_sameOut (streamInFlight_of_block h)⟩

end Sys2Proof.Machine
end

section
/-! PROOFS. The command encoding: OP values and commands correspond one to one, and a table word is the OP value in its two
low bits (30_encoding.md R57, R58, R67). -/

namespace Sys2Proof

/-- DECODE undoes ENCODE. -/
@[simp] theorem decode_encode (i : Instr) : decode (encode i) = i := by
  cases i with
  | encBlk | decBlk | encStr | decStr => rfl

/-- ENCODE undoes DECODE: each of the four OP values is the value of its command. -/
@[simp] theorem encode_decode (op : BitVec 2) : encode (decode op) = op := by
  revert op
  decide

/-- A word that is an OP value has no bit above OP[1:0]. -/
theorem decodeWord_toNat (op : BitVec 2) : decodeWord op.toNat = .ok (decode op) := by
  unfold decodeWord
  rw [if_pos op.isLt, BitVec.ofNat_toNat, BitVec.setWidth_eq]

/-- Two bits of the table word are enough for every OP value. -/
theorem toNat_mod_two_pow (op : BitVec 2) {nbits : Nat} (h : 2 ≤ nbits) : op.toNat % 2 ^ nbits = op.toNat :=
  Nat.mod_eq_of_lt (op.isLt.trans_le (Nat.pow_le_pow_right Nat.two_pos h))

/-- The table word of a command decodes to it, in a table of any width that has room for OP. -/
theorem decodeTableWord_encode {nbits : Nat} (h : 2 ≤ nbits) (i : Instr) :
    decodeTableWord nbits (encode i).toNat = some i := by
  unfold decodeTableWord
  rw [toNat_mod_two_pow _ h, decodeWord_toNat, decode_encode]

/-- Settles O1: the four words are the OP values of the four commands. -/
theorem tableWordsDecode : Obligations.TableWordsDecode := by
  have word : ∀ i, decodeTableWord 8 (encode i).toNat = some i := decodeTableWord_encode (by decide)
  exact ⟨word .encBlk, word .decBlk, word .encStr, word .decStr⟩

end Sys2Proof
end

section
/-! PROOFS. The don't-care operand bits of the commands (30_encoding.md R64), and ALPHABET in closed form (R62). -/

namespace Sys2Proof.Machine

variable {s t u : State} {i : Instr}

/-- The closed form of R62, entry by entry. -/
theorem toNat_map (g : Group) : (map g).toNat = if g.toNat < 26 then 0x41 + g.toNat else 0x17 + g.toNat := by
  revert g
  decide

/-- No two groups map to the same byte, because RMAP undoes MAP. -/
theorem map_injective : Function.Injective map := fun g h hgh => by
  have hr : rmap (map g) = rmap (map h) := congrArg rmap hgh
  simpa using hr

/-- Settles O4. -/
theorem alphabetContents : Obligations.AlphabetContents := by
  refine ⟨fun g => ⟨fun hg => ?_, fun hg => ?_⟩, fun _ _ h => map_injective h⟩
  · rw [toNat_map, if_pos hg]
  · rw [toNat_map, if_neg (Nat.not_lt.2 hg)]

/-- A response overwrites the latches, so states that differ in them only and get one answer end in one state. -/
theorem AnswerAlike.eq_of_withLatch {l : Command} {o p : Host.Outcome State Fault Refusal}
    (h : AnswerAlike s (s.withLatch l) o p) : p = o := by
  cases h with
  | respond r bs _ => rfl
  | fault e => rfl

/-- ENC_BLK reads the five operand bytes only (30_encoding.md R59, R64). -/
theorem execEncBlk_alike_of_rawOperand (h : rawOperand u.latch.din = rawOperand s.latch.din) :
    AnswerAlike s u (execEncBlk s) (execEncBlk u) := by
  unfold execEncBlk
  rw [h]
  exact .of_noOutput _ rfl

/-- Of the latches the stream commands read L_IN_LEN only (30_encoding.md R61, R64). -/
theorem exec_stream_withLatch {l : Command} (hi : i = .encStr ∨ i = .decStr) (hlen : l.inLen = s.latch.inLen) :
    exec i (s.withLatch l) = exec i s := by
  obtain rfl | rfl := hi
  · exact (execEncStr_alike (s := s) (u := s.withLatch l) rfl rfl hlen fun _ _ _ => rfl).eq_of_withLatch
  · exact (execDecStr_alike (s := s) (u := s.withLatch l) rfl rfl hlen fun _ _ _ => rfl).eq_of_withLatch

/-- Of the latches the block commands read L_DIN only (30_encoding.md R59, R60, R64). -/
theorem exec_block_withLatch {l : Command} (hi : i = .encBlk ∨ i = .decBlk) (hdin : l.din = s.latch.din) :
    exec i (s.withLatch l) = exec i s := by
  obtain rfl | rfl := hi
  · exact (execEncBlk_alike (u := s.withLatch l) hdin).eq_of_withLatch
  · exact (execDecBlk_alike (u := s.withLatch l) hdin).eq_of_withLatch

/-- Of L_DIN the command ENC_BLK reads bits 39..0 only (30_encoding.md R59, R64). -/
theorem exec_encBlk_withLatch {l : Command} (hdin : l.din.extractLsb' 0 40 = s.latch.din.extractLsb' 0 40) :
    exec .encBlk (s.withLatch l) = exec .encBlk s := by
  have hraw : rawOperand l.din = rawOperand s.latch.din := by rw [rawOperand_eq, rawOperand_eq, hdin]
  exact (execEncBlk_alike_of_rawOperand (u := s.withLatch l) hraw).eq_of_withLatch

/-- No command completes with STATUS 3 (60_exceptions.md R93). -/
theorem exec_status_ne_three (h : exec i s = .next t) : t.resp.status ≠ 3 := by
  obtain ⟨r, bs, rfl, -, -, h3, -⟩ := exec_next h
  exact h3

/-- Settles O3: a command's answer depends on the operand bits it reads only, and the answer overwrites the latches. -/
theorem dontCareBitsChangeNothing : Obligations.DontCareBitsChangeNothing := by
  refine ⟨fun op => ⟨decode op, encode_decode op, rfl⟩, fun s d hd => ?_, fun s d i hi => ?_, fun s n i hi => ?_,
    fun i s t h => exec_status_ne_three h⟩
  · exact exec_encBlk_withLatch hd
  · exact exec_stream_withLatch hi rfl
  · exact exec_block_withLatch hi rfl

end Sys2Proof.Machine
end

section
/-! PROOFS. The host's write to IN (30_encoding.md R68, 10_state.md R34; log 9). -/

namespace Sys2Proof.Machine

/-- A host write of bytes that exist, while BUSY = 0 or of no bytes, is made. -/
theorem hostMove_writeIn {s : State} {i : Nat} {bs : List Byte} (hb : s.busy = false ∨ bs = [])
    (hr : s.cfg.InRange i bs.length) : hostMove (.writeIn i bs) s = .next (s.memWriteIn i bs) := by
  have hfree : ¬ (s.busy = true ∧ bs ≠ []) := by simpa [or_iff_not_imp_left] using hb
  exact (if_neg hfree).trans (if_pos hr)

/-- The bytes written to IN read back. -/
theorem inByte_memWriteIn_of_getElem? (s : State) (i : Nat) {bs : List Byte} {k : Nat} {b : Byte}
    (h : bs[k]? = some b) : (s.memWriteIn i bs).inByte (i + k) = b := by
  obtain ⟨hk, rfl⟩ := List.getElem?_eq_some_iff.1 h
  rw [inByte_memWriteIn, dif_pos (by omega)]
  simp

/-- Bytes of IN outside the write are as before. -/
theorem inByte_memWriteIn_of_outside (s : State) {i a : Nat} {bs : List Byte} (h : a < i ∨ i + bs.length ≤ a) :
    (s.memWriteIn i bs).inByte a = s.inByte a := by
  rw [inByte_memWriteIn, dif_neg (by omega)]

/-- Settles O37. -/
theorem hostWritesInReadBack : Obligations.HostWritesInReadBack := by
  intro s i bs hb hr
  exact ⟨s.memWriteIn i bs, hostMove_writeIn hb hr, fun _ _ h => inByte_memWriteIn_of_getElem? s i h,
    fun _ h => inByte_memWriteIn_of_outside s h, memWriteIn_outByte s i bs, rfl⟩

end Sys2Proof.Machine
end

section
/-! PROOFS. The step by the event that is next (60_exceptions.md R96; 70_reset_and_hazards.md R111, R122; logs 3, 4), and a
placed command word (log 14). -/

namespace Sys2Proof.Machine

section

variable {s : State} {rest : List Event} (h3 : s.resp.status ≠ 3)

/-- The core's move with a command in flight. -/
theorem coreMove_busy (hb : s.busy = true) : coreMove s = exec (decode s.latch.op) s := if_pos hb

include h3

theorem step_core_busy (hb : s.busy = true) (hp : s.pending = .core :: rest) :
    step s = exec (decode s.latch.op) { s with pending := rest } :=
  (step_cons h3 hp).trans (coreMove_busy (s := { s with pending := rest }) hb)

/-- While BUSY = 1 the core moves and the `wait` stands. -/
theorem step_wait_busy (hb : s.busy = true) (hp : s.pending = .host .wait :: rest) :
    step s = exec (decode s.latch.op) s := by
  calc step s = takeEvent (.host .wait) { s with pending := rest } := step_cons h3 hp
    _ = exec (decode s.latch.op) { s with pending := .host .wait :: rest } := if_pos hb
    _ = exec (decode s.latch.op) s := by rw [← hp]

theorem step_wait_idle (hb : s.busy = false) (hp : s.pending = .host .wait :: rest) :
    step s = .next { s with pending := rest } := step_host h3 hp (.inr hb)

/-- Completion in the instant of a START: the START meets what the command leaves. -/
theorem step_coreStart_busy {t : State} (hb : s.busy = true) (hp : s.pending = .coreStart :: rest)
    (ht : exec (decode s.latch.op) { s with pending := rest } = .next t) : step s = t.pulseStart := by
  rw [step_cons h3 hp, takeEvent, coreMove_busy (s := { s with pending := rest }) hb, ht]
  rfl

theorem step_coreStart_idle (hb : s.busy = false) (hp : s.pending = .coreStart :: rest) :
    step s = State.pulseStart { s with pending := rest } := by
  rw [step_cons h3 hp, takeEvent, coreMove_idle (s := { s with pending := rest }) hb]
  rfl

end

/-- Settles O44, by what is pending. -/
theorem stepRunsDecodedCommand : Obligations.StepRunsDecodedCommand := by
  rintro s i h3 hb rfl
  exact ⟨fun hp => (step_nil h3 hp).trans (coreMove_busy hb), fun _ hp => step_core_busy h3 hb hp,
    fun _ hp => step_wait_busy h3 hb hp⟩

/-- Settles O57, by the event that is next. -/
theorem stepTakesNextEvent : Obligations.StepTakesNextEvent :=
  ⟨fun _ _ _ h3 hp h => step_host h3 hp h, fun _ _ h3 hp hb => step_wait_idle h3 hb hp, fun _ _ h3 hp => step_cons h3 hp,
    fun _ _ _ h3 hp hb ht => step_coreStart_busy h3 hb hp ht, fun _ _ h3 hp hb => step_coreStart_idle h3 hb hp,
    fun s => ⟨resetNow_cfg s, resetNow_pending s, resetNow_got s⟩⟩

/-- The word of a command places it as a START of that command, with the core next to move. -/
theorem withFetchWord_encode (s : State) {nbits : Nat} (h : 2 ≤ nbits) (i : Instr) :
    s.withFetchWord nbits (encode i).toNat =
      { s with
        cmd := { s.cmd with op := encode i }
        latch := { s.cmd with op := encode i }
        busy := true
        respValid := false
        pending := .core :: s.pending } := by
  unfold State.withFetchWord State.stageCommand
  rw [toNat_mod_two_pow _ h, BitVec.ofNat_toNat, BitVec.setWidth_eq]
  rfl

/-- Settles O45: the placed word is a core event with the command latched. -/
theorem placedWordRunsNext : Obligations.PlacedWordRunsNext := by
  intro s nbits i h h3
  refine ⟨decodeTableWord_encode h i, ?_⟩
  have hstatus : (s.withFetchWord nbits (encode i).toNat).resp.status ≠ 3 := h3
  rw [withFetchWord_encode s h] at hstatus ⊢
  rw [step_core_busy hstatus rfl rfl, decode_encode]

end Sys2Proof.Machine
end

section
/-! PROOFS. The pseudo-commands (30_encoding.md R69) in the schedule in which the core moves only while the host waits
(log 3): three host moves put the command in flight, and the `wait` sees it to its end. -/

namespace Sys2Proof.Machine

/-! ### Runs -/

section runs

variable {M : Host.Core} {s t : M.State}

/-- A run begins with one step. -/
theorem run_succ_of_step (h : M.step s = .next t) (k : Nat) : M.run (k + 1) s = M.run k t := by
  rw [Host.Core.run, h]

/-- A run of `j + k` steps goes on from where `j` steps lead. -/
theorem run_add {j : Nat} (h : M.run j s = .next t) (k : Nat) : M.run (j + k) s = M.run k t := by
  induction j generalizing s with
  | zero =>
    obtain rfl : s = t := Host.Outcome.next.inj h
    rw [Nat.zero_add]
  | succ j ih =>
    rw [Nat.succ_add]
    cases hs : M.step s with
    | next u =>
      rw [run_succ_of_step hs] at h ⊢
      exact ih h
    | fault r => simp [Host.Core.run, hs] at h
    | refused r => simp [Host.Core.run, hs] at h

end runs

/-- A command that answers a next state is complete (10_state.md R23). -/
theorem exec_done {i : Instr} {s t : State} (h : exec i s = .next t) : t.Done := by
  obtain ⟨r, bs, rfl, -⟩ := exec_next h
  exact ⟨respond_busy _ r, respond_respValid _ r⟩

/-- A `wait` for a command in flight takes two steps: the core completes it, and the `wait` finds BUSY = 0. -/
theorem run_wait {s : State} {rest : List Event} (h : s.Inv) (hb : s.busy = true)
    (hp : s.pending = .host .wait :: rest) :
    ∃ u, Host.Core.run Sys2Proof.core 2 s = .next u ∧ u.Done ∧ u.pending = rest := by
  obtain ⟨t, ht⟩ := exec_completes (i := decode s.latch.op) h.cfgOk (h.lenDuty hb)
  have hdone : t.Done := exec_done ht
  have hcomplete : step s = .next t := (step_wait_busy h.noReserved hb hp).trans ht
  have hwait : step t = .next { t with pending := rest } :=
    step_wait_idle (exec_status_ne_three ht) hdone.1 ((exec_untouched ht).pending.trans hp)
  refine ⟨{ t with pending := rest }, ?_, hdone, rfl⟩
  calc Host.Core.run Sys2Proof.core 2 s
      _ = Host.Core.run Sys2Proof.core 1 t := run_succ_of_step hcomplete 1
      _ = .next { t with pending := rest } := run_succ_of_step hwait 0

/-! ### Expansions -/

/-- The command of a pseudo-command. -/
def Pseudo.instr : Pseudo → Instr
  | .encBlk _ => .encBlk
  | .decBlk _ => .decBlk
  | .encStr _ => .encStr
  | .decStr _ => .decStr

/-- The host's write of a pseudo-command's operand. -/
def Pseudo.writeOperand : Pseudo → Action
  | .encBlk x => .wrDin (x.setWidth 64)
  | .decBlk x => .wrDin x
  | .encStr n | .decStr n => .wrInLen n

/-- The command registers with a pseudo-command's operand written. -/
def Pseudo.withOperand (p : Pseudo) (c : Command) : Command :=
  match p with
  | .encBlk x => { c with din := x.setWidth 64 }
  | .decBlk x => { c with din := x }
  | .encStr n | .decStr n => { c with inLen := n }

/-- The command registers a pseudo-command starts its command from. -/
def Pseudo.registers (p : Pseudo) (c : Command) : Command := { p.withOperand c with op := encode p.instr }

/-- Every expansion has one shape (R69). -/
theorem Pseudo.expand_eq (p : Pseudo) : p.expand = [p.writeOperand, .wrOp (encode p.instr), .start, .wait] := by
  cases p with
  | encBlk | decBlk | encStr | decStr => rfl

theorem Pseudo.writeOperand_ne_wait (p : Pseudo) : p.writeOperand ≠ .wait := by
  cases p with
  | encBlk | decBlk | encStr | decStr => nofun

section expansion

variable {s : State} {p : Pseudo}

/-- The operand is written, a stream length when it fits LEN_W. -/
theorem hostMove_writeOperand (hn : ∀ n, p = .encStr n ∨ p = .decStr n → s.cfg.FitsLen n) :
    hostMove p.writeOperand s = .next { s with cmd := p.withOperand s.cmd } := by
  cases p with
  | encBlk | decBlk => rfl
  | encStr n => exact if_pos (hn n (.inl rfl))
  | decStr n => exact if_pos (hn n (.inr rfl))

/-- The length a command starts from is the pseudo-command's own or the one that stood in IN_LEN. -/
theorem registers_inLen_le {c : Command} {m : Nat} (hc : c.inLen ≤ m)
    (hn : ∀ n, p = .encStr n ∨ p = .decStr n → n ≤ m) : (p.registers c).inLen ≤ m := by
  cases p with
  | encBlk | decBlk => exact hc
  | encStr n => exact hn n (.inl rfl)
  | decStr n => exact hn n (.inr rfl)

/-- The first three moves of an expansion: operand, OP, and a START that is accepted. -/
theorem run_expand (h3 : s.resp.status ≠ 3) (hb : s.busy = false) (hp : s.pending = eventsOf p.expand)
    (hfits : ∀ n, p = .encStr n ∨ p = .decStr n → s.cfg.FitsLen n)
    (hd : (p.registers s.cmd).inLen ≤ s.cfg.maxInLen) :
    Host.Core.run Sys2Proof.core 3 s =
      .next (State.accept { s with cmd := p.registers s.cmd, pending := [.host .wait] }) := by
  obtain ⟨accepted, -⟩ := startHandshake
  have hscript : s.pending =
      [.host p.writeOperand, .host (.wrOp (encode p.instr)), .host .start, .host .wait] := by
    rw [hp, p.expand_eq]
    rfl
  have hoperand : step s = .next
      { s with
        cmd := p.withOperand s.cmd
        pending := [.host (.wrOp (encode p.instr)), .host .start, .host .wait] } :=
    (step_host h3 hscript (.inl p.writeOperand_ne_wait)).trans (hostMove_writeOperand hfits)
  have hop : step
      { s with
        cmd := p.withOperand s.cmd
        pending := [.host (.wrOp (encode p.instr)), .host .start, .host .wait] } =
      .next { s with cmd := p.registers s.cmd, pending := [.host .start, .host .wait] } :=
    step_host (a := .wrOp (encode p.instr)) h3 rfl (.inl nofun)
  have hstart : step { s with cmd := p.registers s.cmd, pending := [.host .start, .host .wait] } =
      .next (State.accept { s with cmd := p.registers s.cmd, pending := [.host .wait] }) :=
    accepted _ _ h3 rfl hb hd
  exact (run_succ_of_step hoperand 2).trans ((run_succ_of_step hop 1).trans (run_succ_of_step hstart 0))

end expansion

/-- Settles O49: the three moves put the command in flight in a state of the invariant, and the `wait` is left. -/
theorem pseudoCommandsRun : Obligations.PseudoCommandsRun := by
  intro s p h hb hlen hp hn
  obtain ⟨-, -, hmax, -⟩ := h.cfgOk
  have hd : (p.registers s.cmd).inLen ≤ s.cfg.maxInLen := registers_inLen_le hlen hn
  have hrun := run_expand h.noReserved hb hp (fun n hpn => (hn n hpn).trans_lt hmax) hd
  refine ⟨⟨_, hrun, rfl, ?_⟩, ?_⟩
  · cases p with
    | encBlk | decBlk | encStr | decStr => exact ⟨rfl, rfl⟩
  · have hinv : (State.accept { s with cmd := p.registers s.cmd, pending := [.host .wait] }).Inv :=
      ((h.withPendingGotDraws [.host .wait] s.got s.draws).withCmd (hd.trans_lt hmax)).accept hd
    obtain ⟨u, hu, hdone, hrest⟩ := run_wait hinv rfl rfl
    exact ⟨u, (run_add hrun 2).trans hu, hdone, hrest⟩

end Sys2Proof.Machine
end

section
/-! PROOFS. The chunk packers and their inverses: GROUPS_TO_40 and EXTRACT, BYTES_TO_40 and BYTES_OF_40 (40_block_ops.md
R71, R74 to R76). -/

namespace Sys2Proof.Machine

/-- One round of the accumulation appends a group: the shift leaves five zero bits and the sum fills them. -/
theorem shiftLeft_add_group {n : Nat} (acc : BitVec n) (g : Group) :
    (acc.setWidth 40 <<< 5) + g.setWidth 40 = (acc ++ g).setWidth 40 := by
  have happend : (acc ++ g).toNat = acc.toNat * 32 + g.toNat := by
    rw [BitVec.toNat_append, ← Nat.shiftLeft_add_eq_or_of_lt g.isLt, Nat.shiftLeft_eq]
  refine BitVec.eq_of_toNat_eq ?_
  simp only [BitVec.toNat_add, BitVec.toNat_shiftLeft, BitVec.toNat_setWidth, Nat.shiftLeft_eq, happend]
  omega

/-- GROUPS_TO_40 is the concatenation {g0, ..., g7}: the first round shifts zeros, each later one appends. -/
theorem groupsTo40_eq_append (g : Lane → Group) :
    groupsTo40 g = g 0 ++ g 1 ++ g 2 ++ g 3 ++ g 4 ++ g 5 ++ g 6 ++ g 7 := by
  have hfirst : (0#40 <<< 5) + (g 0).setWidth 40 = (g 0).setWidth 40 := BitVec.zero_add _
  have hrounds : groupsTo40 g = (g 0 ++ g 1 ++ g 2 ++ g 3 ++ g 4 ++ g 5 ++ g 6 ++ g 7).setWidth 40 := by
    simp only [← shiftLeft_add_group]
    rw [← hfirst]
    rfl
  rw [hrounds, BitVec.setWidth_eq]

/-- Group k of a packed chunk, bit by bit: the bit lies above the 7 - k lowest groups and inside the next. -/
@[simp] theorem extract_groupsTo40 (g : Lane → Group) (k : Lane) : extract (groupsTo40 g) k = g k := by
  refine BitVec.eq_of_getLsbD_eq fun j hj => ?_
  rw [groupsTo40_eq_append, extract, BitVec.getLsbD_extractLsb']
  repeat rw [BitVec.getLsbD_append]
  match k with
  | 0 | 1 | 2 | 3 | 4 | 5 | 6 | 7 => grind

/-- The eight groups of a chunk are adjacent fields of it, so packed again they are the chunk. -/
@[simp] theorem groupsTo40_extract (v : Chunk) : groupsTo40 (extract v) = v := by
  rw [groupsTo40_eq_append]
  simp only [extract]
  repeat rw [BitVec.extractLsb'_append_extractLsb'_eq_extractLsb']
  · exact BitVec.extractLsb'_eq_self
  all_goals rfl

/-- Settles O6, one lemma per clause. -/
theorem groupsPackAndExtract : Obligations.GroupsPackAndExtract :=
  ⟨extract_groupsTo40, groupsTo40_eq_append, groupsTo40_extract⟩

/-- Byte i of five packed bytes lies above the 4 - i lowest of them, which are dropped one by one, and is then the
lowest. -/
@[simp] theorem bytesOf40_bytesTo40 (b0 b1 b2 b3 b4 : Byte) :
    bytesOf40 (bytesTo40 b0 b1 b2 b3 b4) = [b0, b1, b2, b3, b4] := by
  unfold bytesOf40 bytesTo40
  simp (disch := omega) only [BitVec.extractLsb'_append_eq_right, BitVec.extractLsb'_append_eq_of_le,
    BitVec.extractLsb'_eq_self, Nat.reduceSub]

/-- A field of a zero-extended chunk is that field of the chunk. -/
theorem extractLsb'_zextChunk (v : Chunk) {start len : Nat} (h : start + len ≤ 64) :
    (zextChunk v).extractLsb' start len = v.extractLsb' start len := BitVec.extractLsb'_setWidth_of_le h

/-- The low 40 bits of a zero-extended chunk are the chunk. -/
@[simp] theorem extractLsb'_zextChunk_self (v : Chunk) : (zextChunk v).extractLsb' 0 40 = v := by
  rw [extractLsb'_zextChunk v (by omega), BitVec.extractLsb'_eq_self]

/-- The five bytes of a chunk are the raw bytes of the zero-extended chunk, and packed those are its low 40 bits. -/
theorem bytesTo40_of_bytesOf40 {v : Chunk} {b0 b1 b2 b3 b4 : Byte} (h : bytesOf40 v = [b0, b1, b2, b3, b4]) :
    bytesTo40 b0 b1 b2 b3 b4 = v := by
  obtain ⟨rfl, rfl, rfl, rfl, rfl⟩ : _ ∧ _ ∧ _ ∧ _ ∧ _ := by simpa [bytesOf40] using h
  have hraw : rawOperand (zextChunk v) = v := by rw [rawOperand_eq, extractLsb'_zextChunk_self]
  simpa [rawOperand, rawByte_zextChunk] using hraw

/-- Settles O7, one lemma per direction. -/
theorem chunkBytesInverse : Obligations.ChunkBytesInverse :=
  ⟨bytesOf40_bytesTo40, fun _ _ _ _ _ _ => bytesTo40_of_bytesOf40⟩

end Sys2Proof.Machine
end

section
/-! PROOFS. The block commands ENC_BLK and DEC_BLK: what each answers, that they are inverse, and that the encoders
produce symbols only (40_block_ops.md R77, R78, R82, R83). -/

namespace Sys2Proof.Machine

variable {s t : State}

/-! ### What the two commands answer -/

/-- A response that fits its registers is written as it stands. -/
theorem respond_resp_of_fits {r : Response} (hpos : s.cfg.FitsLen r.errPos) (hlen : s.cfg.FitsLen r.outLen) :
    (s.respond r).resp = r := by
  show Response.mk r.status r.dout r.errMask (toLen s.cfg r.errPos) (toLen s.cfg r.outLen) = r
  rw [toLen_of_fits hpos, toLen_of_fits hlen]

/-- A successful completion whose length fits OUT_LEN. -/
theorem commit_succeeded (d : Word) {n : Nat} (hn : s.cfg.FitsLen n) : (s.commit d n).Succeeded d n :=
  ⟨⟨rfl, rfl⟩, respond_resp_of_fits (Nat.two_pow_pos _) hn⟩

/-- EXTRACT on bits 39..0 of a word is that field of the word: it ends at bit 40 at most (R71). -/
theorem extract_low (d : Word) (k : Lane) : extract (d.extractLsb' 0 40) k = d.extractLsb' (35 - 5 * k.val) 5 :=
  BitVec.extractLsb'_extractLsb'_of_le (by omega)

/-- ENC_BLK answers the eight mapped groups of L_DIN[39:0] (40_block_ops.md R77). -/
theorem exec_encBlk (s : State) :
    exec .encBlk s = .next (s.commit (packSymbols (encodeLane (s.latch.din.extractLsb' 0 40))) 0) := by
  rw [← rawOperand_eq]
  rfl

/-- The mask of DEC_BLK has a bit for every lane that holds no symbol. -/
theorem laneMask_rmap_getLsbD (c : Lane → Byte) (k : Lane) :
    (laneMask fun k => (rmap (c k)).valid).getLsbD k.val = true ↔ ¬ IsSymbol (c k) := by
  rw [laneMask_getLsbD, ← rmap_valid_iff, Bool.not_eq_true', Bool.not_eq_true]

/-- Eight symbols give an empty mask. -/
theorem laneMask_rmap_eq_zero_iff (c : Lane → Byte) :
    (laneMask fun k => (rmap (c k)).valid) = 0 ↔ ∀ k, IsSymbol (c k) := by
  simp only [laneMask_eq_zero_iff, rmap_valid_iff]

/-- DEC_BLK of eight symbols answers the zero-extended packed groups (40_block_ops.md R78). -/
theorem exec_decBlk_of_symbols (h : ∀ k, IsSymbol (symbol s.latch.din k)) :
    exec .decBlk s = .next (s.commit (zextChunk (groupsTo40 fun k => (rmap (symbol s.latch.din k)).idx)) 0) := by
  rw [exec, execDecBlk_eq, if_neg (not_not.2 ((laneMask_rmap_eq_zero_iff _).2 h))]

/-- DEC_BLK of any other word raises InvalidCharacter (40_block_ops.md R78). -/
theorem exec_decBlk_of_not_symbol (h : ∃ k, ¬ IsSymbol (symbol s.latch.din k)) :
    ∃ m, exec .decBlk s = .next (s.raise .decBlk (.invalidCharacter m (lowestLane m))) ∧ m ≠ 0 ∧
      ∀ k : Lane, m.getLsbD k.val = true ↔ ¬ IsSymbol (symbol s.latch.din k) := by
  have hm : (laneMask fun k => (rmap (symbol s.latch.din k)).valid) ≠ 0 :=
    mt (laneMask_rmap_eq_zero_iff _).1 (not_forall.2 h)
  exact ⟨_, by rw [exec, execDecBlk_eq, if_pos hm], hm, laneMask_rmap_getLsbD _⟩

/-- DEC_BLK completes with STATUS 0 only on eight symbols. -/
theorem decBlk_symbols_of_status (h : exec .decBlk s = .next t) (h0 : t.resp.status = 0) (k : Lane) :
    IsSymbol (symbol s.latch.din k) := by
  by_contra hk
  obtain ⟨m, hm, -⟩ := exec_decBlk_of_not_symbol ⟨k, hk⟩
  obtain rfl := Host.Outcome.next.inj (hm.symm.trans h)
  exact absurd h0 (by decide : (2 : BitVec 2) ≠ 0)

/-- Settles O9. -/
theorem encBlkEncodesChunk : Obligations.EncBlkEncodesChunk := by
  intro s
  obtain ⟨hframe, hout⟩ := blockCommandsFrame _ _ _ (.inl rfl) (exec_encBlk s)
  refine ⟨_, exec_encBlk s, commit_succeeded _ (Nat.two_pow_pos _), fun k => ?_, hframe, hout⟩
  calc symbol (packSymbols (encodeLane (s.latch.din.extractLsb' 0 40))) k
      = map (extract (s.latch.din.extractLsb' 0 40) k) := symbol_packSymbols _ k
    _ = map (s.latch.din.extractLsb' (35 - 5 * k.val) 5) := by rw [extract_low]

/-- A lane number fits ERR_POS, because LEN_W is at least 3 (00_scope.md R7). -/
theorem lane_fitsLen {c : Config} (hw : 3 ≤ c.lenW) (k : Lane) : c.FitsLen k.val :=
  k.isLt.trans_le (Nat.pow_le_pow_right Nat.two_pos hw)

/-- Settles O10: the mask is empty exactly on eight symbols, and it decides which answer is given. -/
theorem decBlkDecodesOrReports : Obligations.DecBlkDecodesOrReports := by
  intro s hw
  constructor
  · intro h
    have hexec := exec_decBlk_of_symbols h
    obtain ⟨hframe, hout⟩ := blockCommandsFrame _ _ _ (.inr rfl) hexec
    refine ⟨_, hexec, commit_succeeded _ (Nat.two_pow_pos _), fun k => ?_, zextChunk_high _, hframe, hout⟩
    calc map ((zextChunk (groupsTo40 fun k => (rmap (symbol s.latch.din k)).idx)).extractLsb' (35 - 5 * k.val) 5)
        = map (extract (groupsTo40 fun k => (rmap (symbol s.latch.din k)).idx) k) := by
          rw [extractLsb'_zextChunk _ (by omega), extract]
      _ = symbol s.latch.din k := by rw [extract_groupsTo40, map_idx_rmap (rmap_valid_iff.2 (h k))]
  · intro h
    obtain ⟨m, hexec, hm, hmask⟩ := exec_decBlk_of_not_symbol h
    obtain ⟨hframe, hout⟩ := blockCommandsFrame _ _ _ (.inr rfl) hexec
    obtain ⟨k, hk, hbad, hlow⟩ := lowestLane_spec hm
    have hresp : (s.raise .decBlk (.invalidCharacter m (lowestLane m))).resp =
        { status := 2, dout := 0, errMask := m, errPos := k.val, outLen := 0 } := by
      rw [hk]
      exact respond_resp_of_fits (lane_fitsLen hw k) (Nat.two_pow_pos _)
    have hlowest : ∀ j < k, IsSymbol (symbol s.latch.din j) := fun j hj =>
      not_not.1 (mt (hmask j).2 (Bool.eq_false_iff.1 (hlow j hj)))
    exact ⟨_, hexec, ⟨⟨rfl, rfl⟩, by rw [hresp]⟩, hmask, ⟨k, by rw [hresp], (hmask k).1 hbad, hlowest⟩, hframe, hout⟩

/-! ### Encode and decode are inverse -/

/-- Unmapping every lane of an encoded chunk and packing the groups gives the chunk. -/
theorem groupsTo40_rmap_encodeLane (v : Chunk) : (groupsTo40 fun k => (rmap (encodeLane v k)).idx) = v := by
  simp only [encodeLane, rmap_map]
  exact groupsTo40_extract v

/-- Encoding the chunk that eight symbols pack to gives each symbol back. -/
theorem encodeLane_groupsTo40_rmap {c : Lane → Byte} (h : ∀ k, IsSymbol (c k)) :
    encodeLane (groupsTo40 fun k => (rmap (c k)).idx) = c := by
  funext k
  rw [encodeLane, extract_groupsTo40, map_idx_rmap (rmap_valid_iff.2 (h k))]

/-- Every lane of the encode direction produces a symbol, because MAP is total. -/
theorem isSymbol_encodeLane (v : Chunk) (k : Lane) : IsSymbol (encodeLane v k) := ⟨_, rfl⟩

/-- Settles O12: DEC_BLK reads eight symbols, and unmapping and packing them undoes the encoder's lanes. -/
theorem blockEncodeThenDecode : Obligations.BlockEncodeThenDecode := by
  intro s t u h hdin
  obtain rfl := Host.Outcome.next.inj ((exec_encBlk s).symm.trans h)
  have hsym : symbol u.latch.din = encodeLane (s.latch.din.extractLsb' 0 40) := by
    rw [hdin]
    exact funext (symbol_packSymbols _)
  have hexec := exec_decBlk_of_symbols (s := u) fun k => hsym ▸ isSymbol_encodeLane _ k
  rw [hsym, groupsTo40_rmap_encodeLane] at hexec
  exact ⟨_, hexec, commit_succeeded _ (Nat.two_pow_pos _)⟩

/-- Settles O13: a success of DEC_BLK says that all eight bytes were symbols; the encoder's lanes give those back. -/
theorem blockDecodeThenEncode : Obligations.BlockDecodeThenEncode := by
  intro s t u h h0 hdin
  have hsym := decBlk_symbols_of_status h h0
  obtain rfl := Host.Outcome.next.inj ((exec_decBlk_of_symbols hsym).symm.trans h)
  have hchunk : u.latch.din.extractLsb' 0 40 = groupsTo40 fun k => (rmap (symbol s.latch.din k)).idx := by
    rw [hdin]
    exact extractLsb'_zextChunk_self _
  have hexec := exec_encBlk u
  rw [hchunk, encodeLane_groupsTo40_rmap hsym, packSymbols_symbol] at hexec
  exact ⟨_, hexec, commit_succeeded _ (Nat.two_pow_pos _)⟩

/-! ### Alphabet closure -/

/-- Every byte of an encoded stream is a lane's output for some chunk, hence a symbol. -/
theorem isSymbol_of_mem_encodeStream {par L : Nat} {inp : Nat → Byte} {b : Byte} (h : b ∈ encodeStream par L inp) :
    IsSymbol b := by
  rw [encodeStream, sequencer_eq] at h
  obtain ⟨j, -, hb⟩ := List.mem_flatMap.1 h
  obtain ⟨k, -, rfl⟩ := List.mem_map.1 hb
  exact isSymbol_encodeLane _ k

/-- Settles O11: DOUT holds eight lanes' outputs, and OUT below OUT_LEN the encoded stream; an error has OUT_LEN 0. -/
theorem encodersWriteOnlySymbols : Obligations.EncodersWriteOnlySymbols := by
  refine ⟨fun s t h k => ?_, fun s t h i hi => ?_⟩
  · obtain ⟨t', ht', -, hsym, -⟩ := encBlkEncodesChunk s
    obtain rfl := Host.Outcome.next.inj (ht'.symm.trans h)
    exact ⟨_, (hsym k).symm⟩
  · obtain ⟨-, rfl⟩ | ⟨-, -, -, rfl⟩ := execEncStr_next h
    · exact absurd hi (by rw [State.raise, respond_outLen, toLen_zero]; exact Nat.not_lt_zero i)
    · have hlen : i < (encodeStream s.cfg.par s.latch.inLen s.inByte).length := by
        rw [length_encodeStream]
        exact hi.trans_le (toLen_le _ _)
      rw [State.commit, respond_outByte, outByte_memWriteOut, dif_pos ⟨Nat.zero_le i, hlen⟩]
      exact isSymbol_of_mem_encodeStream (List.getElem_mem hlen)

end Sys2Proof.Machine
end

section
/-! PROOFS. The stream commands ENC_STR and DEC_STR: what each answers, the length law, the empty and the one-chunk
stream, and that the two are inverse (41_stream_ops.md R85 to R89). -/

namespace Sys2Proof.Machine

variable {s t : State}

/-! ### The chunks of a stream -/

/-- Chunk j of a stream of raw bytes (R39, R85). -/
def rawChunk (inp : Nat → Byte) (j : Nat) : Chunk :=
  bytesTo40 (inp (5 * j)) (inp (5 * j + 1)) (inp (5 * j + 2)) (inp (5 * j + 3)) (inp (5 * j + 4))

/-- Chunk j of a stream of symbols, packed (R39, R86). -/
def symbolChunk (inp : Nat → Byte) (j : Nat) : Chunk := groupsTo40 fun k => (rmap (inp (8 * j + k.val))).idx

/-- Symbol k of chunk j of the encoded stream. -/
theorem encodeStream_getElem? {par L j : Nat} (inp : Nat → Byte) (hj : j < L / 5) (k : Lane) :
    (encodeStream par L inp)[8 * j + k.val]? = some (encodeLane (rawChunk inp j) k) :=
  (sequencer_getElem? (fun _ => length_encodeChunk _) hj k.isLt).trans (encodeChunk_getElem? _ k)

/-- Byte i of chunk j of the decoded stream. -/
theorem decodeStream_getElem? {par L j : Nat} (inp : Nat → Byte) (hj : j < L / 8) (i : Fin 5) :
    (decodeStream par L inp)[5 * j + i.val]? = (bytesOf40 (symbolChunk inp j))[i.val]? :=
  sequencer_getElem? (fun _ => length_decodeChunk _) hj i.isLt

/-- Every index below c*n stands in one of n chunks of length c. -/
theorem exists_chunk_index {c n a : Nat} (h : a < c * n) : ∃ j < n, ∃ i : Fin c, a = c * j + i.val :=
  ⟨a / c, Nat.div_lt_of_lt_mul h, ⟨a % c, Nat.mod_lt _ (Nat.pos_of_lt_mul_right h)⟩, (Nat.div_add_mod a c).symm⟩

/-- A chunk is chunk j of a stream exactly when the stream's bytes there are the chunk's (R75). -/
theorem rawChunk_eq_iff {inp : Nat → Byte} {j : Nat} {v : Chunk} :
    rawChunk inp j = v ↔ ∀ i : Fin 5, (bytesOf40 v)[i.val]? = some (inp (5 * j + i.val)) := by
  constructor
  · rintro rfl i
    rw [rawChunk, bytesOf40_bytesTo40]
    match i with
    | 0 | 1 | 2 | 3 | 4 => rfl
  · intro h
    exact bytesTo40_of_bytesOf40 (by simpa [bytesOf40, Fin.forall_fin_succ] using h)

/-- A chunk of symbols that the encoder wrote packs to the chunk it encoded. -/
theorem symbolChunk_of_encodeLane {inp : Nat → Byte} {j : Nat} {v : Chunk}
    (h : ∀ k : Lane, inp (8 * j + k.val) = encodeLane v k) : symbolChunk inp j = v := by
  simp only [symbolChunk, h]
  exact groupsTo40_rmap_encodeLane v

/-- Encoding a packed chunk of symbols gives each symbol back. -/
theorem encodeLane_symbolChunk {inp : Nat → Byte} {j : Nat} (h : ∀ k : Lane, IsSymbol (inp (8 * j + k.val)))
    (k : Lane) :
    encodeLane (symbolChunk inp j) k = inp (8 * j + k.val) :=
  congrFun (encodeLane_groupsTo40_rmap h) k

/-- No byte below L fails the check exactly when all are symbols. -/
theorem firstBad_rmap_eq_none_iff {inp : Nat → Byte} {L : Nat} :
    firstBad L (fun i => (rmap (inp i)).valid) = none ↔ ∀ i < L, IsSymbol (inp i) := by
  simp only [firstBad_eq_none_iff, rmap_valid_iff]

/-- The check's answer is the lowest index below L without a symbol. -/
theorem firstBad_rmap_eq_some_iff {inp : Nat → Byte} {L p : Nat} :
    firstBad L (fun i => (rmap (inp i)).valid) = some p ↔
      p < L ∧ ¬ IsSymbol (inp p) ∧ ∀ i < p, IsSymbol (inp i) := by
  simp only [firstBad_eq_some_iff, ← Bool.not_eq_true, rmap_valid_iff]

/-! ### What the two commands answer -/

/-- A stream exists in IN exactly when its length is at most MAX_IN_LEN. -/
theorem inRange_zero_iff {c : Config} {L : Nat} : c.InRange 0 L ↔ L ≤ c.maxInLen := by
  unfold Config.InRange
  omega

/-- The length of an output that fits a lawful OUT fits OUT_LEN (R7). -/
theorem fitsLen_of_le_maxOutLen {c : Config} {n : Nat} (hc : c.Ok) (hn : n ≤ c.maxOutLen) : c.FitsLen n :=
  hn.trans_lt hc.2.1

/-- A command that raises an error: the error's response and nothing else (60_exceptions.md R97, R98). -/
theorem raise_answers {i : Instr} {e : CmdError} (h : exec i s = .next (s.raise i e)) (hpos : s.cfg.FitsLen e.pos) :
    ∃ t, exec i s = .next t ∧ t.Failed e.code (e.mask i) e.pos ∧ s.Untouched t ∧ s.SameOut t :=
  ⟨_, h, ⟨⟨rfl, rfl⟩, respond_resp_of_fits hpos (Nat.two_pow_pos _)⟩, exec_untouched h, respond_outByte s _⟩

/-- A stream's output that fits a lawful OUT: a success that stores it at the start of OUT and nothing else. -/
theorem commitStream_answers {bs : List Byte} (hc : s.cfg.Ok) (hfits : bs.length ≤ s.cfg.maxOutLen) :
    ∃ t, s.commitStream bs = .next t ∧ t.Succeeded 0 bs.length ∧ (∀ a < bs.length, bs[a]? = some (t.outByte a)) ∧
      (∀ a, bs.length ≤ a → t.outByte a = s.outByte a) ∧ s.Untouched t := by
  have hlen : s.cfg.FitsLen bs.length := fitsLen_of_le_maxOutLen hc hfits
  refine ⟨_, commitStream_of_fits hfits, commit_succeeded (s := s.memWriteOut 0 bs) 0 hlen, fun a ha => ?_,
    fun a ha => outByte_memWriteOut_of_le ha, untouched_respond s bs _⟩
  rw [State.commit, respond_outByte, outByte_memWriteOut, dif_pos ⟨Nat.zero_le a, ha⟩]
  exact List.getElem?_eq_getElem ha

section lawful
variable (hc : s.cfg.Ok) (hL : s.latch.inLen ≤ s.cfg.maxInLen)
include hc hL

/-- ENC_STR of n whole chunks succeeds and stores the symbols of every chunk (R85). -/
theorem exec_encStr_succeeds {n : Nat} (hn : s.latch.inLen = 5 * n) :
    ∃ t, exec .encStr s = .next t ∧ t.Succeeded 0 (n * 8) ∧
      (∀ j < n, ∀ k : Lane, t.outByte (8 * j + k.val) = encodeLane (rawChunk s.inByte j) k) ∧
      (∀ a, n * 8 ≤ a → t.outByte a = s.outByte a) ∧ s.Untouched t := by
  obtain ⟨t, ht, hsucc, hstored, hbeyond, hframe⟩ :=
    commitStream_answers (bs := encodeStream s.cfg.par s.latch.inLen s.inByte) hc (by simpa using encode_fits hc hL)
  rw [length_encodeStream, show s.latch.inLen / 5 = n by omega] at hsucc hstored hbeyond
  have hexec := execEncStr_stream (by omega) (inRange_zero_iff.2 hL)
  refine ⟨t, hexec.trans ht, hsucc, fun j hj k => ?_, hbeyond, hframe⟩
  exact Option.some.inj ((hstored _ (by omega)).symm.trans (encodeStream_getElem? s.inByte (by omega) k))

/-- DEC_STR of n whole chunks of symbols succeeds and stores the bytes of every chunk (R86). -/
theorem exec_decStr_succeeds {n : Nat} (hn : s.latch.inLen = 8 * n)
    (hsym : ∀ i < s.latch.inLen, IsSymbol (s.inByte i)) :
    ∃ t, exec .decStr s = .next t ∧ t.Succeeded 0 (n * 5) ∧
      (∀ j < n, ∀ i : Fin 5, (bytesOf40 (symbolChunk s.inByte j))[i.val]? = some (t.outByte (5 * j + i.val))) ∧
      (∀ a, n * 5 ≤ a → t.outByte a = s.outByte a) ∧ s.Untouched t := by
  obtain ⟨t, ht, hsucc, hstored, hbeyond, hframe⟩ :=
    commitStream_answers (bs := decodeStream s.cfg.par s.latch.inLen s.inByte) hc (by simpa using decode_fits hc hL)
  rw [length_decodeStream, show s.latch.inLen / 8 = n by omega] at hsucc hstored hbeyond
  have hexec := execDecStr_stream (by omega) (inRange_zero_iff.2 hL) (firstBad_rmap_eq_none_iff.2 hsym)
  refine ⟨t, hexec.trans ht, hsucc, fun j hj i => ?_, hbeyond, hframe⟩
  exact (decodeStream_getElem? s.inByte (by omega) i).symm.trans (hstored _ (by omega))

end lawful

/-- Settles O17: the two lengths are two answers, and neither of them is STATUS 2. -/
theorem encStrEncodesStream : Obligations.EncStrEncodesStream := by
  intro s hc hL
  refine ⟨fun h5 => ?_, fun h5 => exec_encStr_succeeds hc hL (by omega), fun t h => ?_⟩
  · exact raise_answers (i := .encStr) (execEncStr_badLength h5) (Nat.two_pow_pos _)
  · obtain ⟨-, rfl⟩ | ⟨-, -, -, rfl⟩ := execEncStr_next h
    · exact (by decide : (1 : BitVec 2) ≠ 2)
    · exact (by decide : (0 : BitVec 2) ≠ 2)

/-- Settles O18: the length is checked first, then the lowest byte that is no symbol decides. -/
theorem decStrDecodesOrReports : Obligations.DecStrDecodesOrReports := by
  intro s hc hL
  refine ⟨fun h8 => ?_, fun p h8 hp hbad hlow => ?_, fun h8 => exec_decStr_succeeds hc hL (by omega)⟩
  · exact raise_answers (i := .decStr) (execDecStr_badLength h8) (Nat.two_pow_pos _)
  · obtain ⟨-, -, hfits, -⟩ := hc
    exact raise_answers (i := .decStr)
      (execDecStr_badByte h8 (inRange_zero_iff.2 hL) (firstBad_rmap_eq_some_iff.2 ⟨hp, hbad, hlow⟩))
      ((hp.trans_le hL).trans hfits)

/-! ### Encode and decode are inverse -/

/-- Settles O23: chunk j of the output packs to chunk j of the input, whose bytes are the input's. -/
theorem streamEncodeThenDecode : Obligations.StreamEncodeThenDecode := by
  intro s n hc hs h5 h8
  obtain ⟨t, ht, hsucc, hsymbols, -, -⟩ := exec_encStr_succeeds hc (hs ▸ h5) hs
  refine ⟨t, ht, Nat.mul_comm n 8 ▸ hsucc, fun u hcfg hu hcopy => ?_⟩
  have hlanes : ∀ j < n, ∀ k : Lane, u.inByte (8 * j + k.val) = encodeLane (rawChunk s.inByte j) k := fun j hj k => by
    rw [hcopy _ (by omega), hsymbols j hj k]
  have hsym : ∀ i < u.latch.inLen, IsSymbol (u.inByte i) := fun i hi => by
    obtain ⟨j, hj, k, rfl⟩ := exists_chunk_index (hi.trans_eq hu)
    exact hlanes j hj k ▸ isSymbol_encodeLane _ k
  obtain ⟨v, hv, hvsucc, hbytes, -, -⟩ :=
    exec_decStr_succeeds (hcfg ▸ hc) (by rwa [hcfg, hu]) hu hsym
  refine ⟨v, hv, Nat.mul_comm n 5 ▸ hvsucc, fun a ha => ?_⟩
  obtain ⟨j, hj, i, rfl⟩ := exists_chunk_index ha
  refine Option.some.inj ?_
  calc some (v.outByte (5 * j + i.val))
      = (bytesOf40 (symbolChunk u.inByte j))[i.val]? := (hbytes j hj i).symm
    _ = (bytesOf40 (rawChunk s.inByte j))[i.val]? := by rw [symbolChunk_of_encodeLane (hlanes j hj)]
    _ = some (s.inByte (5 * j + i.val)) := rawChunk_eq_iff.1 rfl i

/-- Settles O24: chunk j of the output is what chunk j of the input packs to, and encoding that gives the symbols. -/
theorem streamDecodeThenEncode : Obligations.StreamDecodeThenEncode := by
  intro s n hc hs h8 hsym
  obtain ⟨t, ht, hsucc, hbytes, -, -⟩ :=
    exec_decStr_succeeds hc (hs ▸ h8) hs fun i hi => hsym i (hs ▸ hi)
  refine ⟨t, ht, Nat.mul_comm n 5 ▸ hsucc, fun u hcfg hu hcopy => ?_⟩
  have hchunk : ∀ j < n, rawChunk u.inByte j = symbolChunk s.inByte j := fun j hj =>
    rawChunk_eq_iff.2 fun i => by rw [hcopy _ (by omega), hbytes j hj i]
  obtain ⟨v, hv, hvsucc, hsymbols, -, -⟩ :=
    exec_encStr_succeeds (hcfg ▸ hc) (by rw [hcfg, hu]; omega) hu
  refine ⟨v, hv, Nat.mul_comm n 8 ▸ hvsucc, fun a ha => ?_⟩
  obtain ⟨j, hj, k, rfl⟩ := exists_chunk_index ha
  calc v.outByte (8 * j + k.val)
      = encodeLane (rawChunk u.inByte j) k := hsymbols j hj k
    _ = encodeLane (symbolChunk s.inByte j) k := by rw [hchunk j hj]
    _ = s.inByte (8 * j + k.val) := encodeLane_symbolChunk (fun k => hsym _ (by omega)) k

/-! ### The length law, the empty stream and the one-chunk stream -/

/-- OUT_LEN of a stream whose output fits a lawful OUT is the length it was given, not cut to LEN_W bits. -/
theorem stream_commit_outLen {bs : List Byte} {n : Nat} (hc : s.cfg.Ok) (hfits : n ≤ s.cfg.maxOutLen) :
    ((s.memWriteOut 0 bs).commit 0 n).resp.outLen = n := toLen_of_fits (fitsLen_of_le_maxOutLen hc hfits)

/-- Settles O20: a success has a whole number of chunks, and the output of a stream that exists in IN fits OUT. -/
theorem streamLengthLaw : Obligations.StreamLengthLaw := by
  refine ⟨fun s t hc h h0 => ?_, fun s t hc h h0 => ?_⟩
  · obtain ⟨-, rfl⟩ | ⟨h5, hr, -, rfl⟩ := execEncStr_next h
    · exact absurd h0 (by decide : (1 : BitVec 2) ≠ 0)
    · have hfits := encode_fits hc (inRange_zero_iff.1 hr)
      rw [stream_commit_outLen hc hfits]
      exact ⟨by omega, hfits⟩
  · obtain ⟨-, rfl⟩ | ⟨p, -, -, -, rfl⟩ | ⟨h8, hr, -, -, rfl⟩ := execDecStr_next h
    · exact absurd h0 (by decide : (1 : BitVec 2) ≠ 0)
    · exact absurd h0 (by decide : (2 : BitVec 2) ≠ 0)
    · have hfits := decode_fits hc (inRange_zero_iff.1 hr)
      rw [stream_commit_outLen hc hfits]
      exact ⟨by omega, hfits⟩

/-- The empty stream passes every check, whatever the sizes are, and has no output (R88). -/
theorem exec_stream_empty {i : Instr} (hi : i = .encStr ∨ i = .decStr) (h0 : s.latch.inLen = 0) :
    exec i s = .next (s.commit 0 0) := by
  have hr : s.cfg.InRange 0 s.latch.inLen := .inl h0
  obtain rfl | rfl := hi
  · rw [exec, execEncStr_stream (by rw [h0]) hr, h0]
    exact commitStream_of_fits (bs := []) (Nat.zero_le _)
  · rw [exec, execDecStr_stream (by rw [h0]) hr (firstBad_rmap_eq_none_iff.2 (by simp [h0])), h0]
    exact commitStream_of_fits (bs := []) (Nat.zero_le _)

/-- Settles O21: the answer is one response, in which IN does not stand. -/
theorem emptyStreamSucceeds : Obligations.EmptyStreamSucceeds := by
  intro s i hi h0
  refine ⟨_, commit_succeeded (s := s) 0 (Nat.two_pow_pos _), untouched_respond s [] _, respond_outByte s _, fun m => ?_⟩
  exact exec_stream_empty (s := { s with inBuf := m }) hi h0

/-- The first chunk of a stream that holds the five operand bytes is the operand of ENC_BLK. -/
theorem rawChunk_zero_of_rawByte {inp : Nat → Byte} {d : Word} (h : ∀ i : Fin 5, inp i.val = rawByte d i) :
    rawChunk inp 0 = rawOperand d := by
  simp only [rawOperand, ← h]
  rfl

/-- The first chunk of a stream that holds the eight operand symbols packs as in DEC_BLK. -/
theorem symbolChunk_zero_of_symbol {inp : Nat → Byte} {d : Word} (h : ∀ k : Lane, inp k.val = symbol d k) :
    symbolChunk inp 0 = groupsTo40 fun k => (rmap (symbol d k)).idx := by
  simp only [symbolChunk, Nat.mul_zero, Nat.zero_add, h]

/-- Settles O22: chunk 0 of the stream is the block command's operand. -/
theorem oneChunkStreamIsBlock : Obligations.OneChunkStreamIsBlock := by
  refine ⟨fun s u tb hc h5 hlen hbytes hblk => ?_, fun s u tb hc h8 hlen hsyms hblk h0 => ?_⟩
  · obtain rfl := Host.Outcome.next.inj ((exec_encBlk u).symm.trans hblk)
    obtain ⟨t, ht, hsucc, hout, -, -⟩ := exec_encStr_succeeds (n := 1) hc (hlen ▸ h5) hlen
    refine ⟨t, ht, hsucc, fun k => ?_⟩
    calc t.outByte k.val
        = encodeLane (rawChunk s.inByte 0) k := by simpa using hout 0 (by decide) k
      _ = encodeLane (u.latch.din.extractLsb' 0 40) k := by rw [rawChunk_zero_of_rawByte hbytes, rawOperand_eq]
      _ = symbol (packSymbols (encodeLane (u.latch.din.extractLsb' 0 40))) k := (symbol_packSymbols _ k).symm
  · have hsym := decBlk_symbols_of_status hblk h0
    obtain rfl := Host.Outcome.next.inj ((exec_decBlk_of_symbols hsym).symm.trans hblk)
    have hstream : ∀ i < s.latch.inLen, IsSymbol (s.inByte i) := fun i hi => by
      rw [hsyms ⟨i, hlen ▸ hi⟩]
      exact hsym _
    obtain ⟨t, ht, hsucc, hout, -, -⟩ := exec_decStr_succeeds (n := 1) hc (hlen ▸ h8) hlen hstream
    refine ⟨t, ht, hsucc, fun i => Option.some.inj ?_⟩
    calc some (t.outByte i.val)
        = (bytesOf40 (symbolChunk s.inByte 0))[i.val]? := by simpa using (hout 0 (by decide) i).symm
      _ = (bytesOf40 (groupsTo40 fun k => (rmap (symbol u.latch.din k)).idx))[i.val]? := by
          rw [symbolChunk_zero_of_symbol hsyms]
      _ = some (rawByte (zextChunk (groupsTo40 fun k => (rmap (symbol u.latch.din k)).idx)) i) :=
          bytesOf40_getElem? _ i

end Sys2Proof.Machine
end

section
/-! PROOFS. Errors (60_exceptions.md R90, R91, R93, R97, R98): what raises each, told apart by STATUS, and that raising one
writes its response and nothing else. -/

namespace Sys2Proof.Machine

variable {s t : State} {i : Instr}

/-! ### The error response -/

/-- Whichever command raises an error whose position fits LEN_W, the error's response is written and nothing else
(R97, R98). -/
theorem raise_writes_response (s : State) (i : Instr) {e : CmdError} (hpos : s.cfg.FitsLen e.pos) :
    (s.raise i e).Failed e.code (e.mask i) e.pos ∧ s.Untouched (s.raise i e) ∧ s.SameOut (s.raise i e) :=
  ⟨⟨⟨rfl, rfl⟩, respond_resp_of_fits hpos (Nat.two_pow_pos _)⟩, untouched_respond s [] _, respond_outByte s _⟩

/-- Settles O28: the position of InvalidLength is 0, which fits any LEN_W. -/
theorem errorResponseWritten : Obligations.ErrorResponseWritten := fun s i =>
  ⟨raise_writes_response s i (e := .invalidLength) (Nat.two_pow_pos _),
    fun m p hp => raise_writes_response s i (e := .invalidCharacter m p) hp⟩

/-- Settles O29: a command that responds with STATUS not 0 stores no byte of OUT, so it is that response alone. -/
theorem errorsArePrecise : Obligations.ErrorsArePrecise := by
  intro i s t h hs
  obtain ⟨r, bs, rfl, hlen, -, -, herr, -⟩ := exec_next h
  obtain ⟨hdout, rfl⟩ := herr hs
  have houtLen : (s.respond r).resp.outLen = 0 := by rw [respond_outLen, hlen, List.length_nil, toLen_zero]
  exact ⟨rfl, hdout, houtLen, respond_outByte s r⟩

/-- Settles O30: the step looks for STATUS 3 before anything else. -/
theorem reservedStatusIsModelFault : Obligations.ReservedStatusIsModelFault :=
  ⟨fun _ _ _ h => exec_status_ne_three h, fun _ h3 => if_pos h3⟩

/-! ### What raises each error -/

/-- What raises InvalidLength: a stream that is no whole number of chunks (R90). -/
def State.BadLength (s : State) (i : Instr) : Prop :=
  i = .encStr ∧ s.latch.inLen % 5 ≠ 0 ∨ i = .decStr ∧ s.latch.inLen % 8 ≠ 0

/-- What raises InvalidCharacter: a decoder meets a byte that is no symbol, a stream decoder only in a stream of lawful
length (R91). -/
def State.BadCharacter (s : State) (i : Instr) : Prop :=
  i = .decBlk ∧ (∃ k, ¬ IsSymbol (symbol s.latch.din k)) ∨
    i = .decStr ∧ s.latch.inLen % 8 = 0 ∧ ∃ p < s.latch.inLen, ¬ IsSymbol (s.inByte p)

/-- STATUS of a command that completes, by what its operands are: the two errors exclude each other, and a success has
neither. -/
theorem exec_status (h : exec i s = .next t) :
    (t.resp.status = 0 ∧ ¬ s.BadLength i ∧ ¬ s.BadCharacter i) ∨
    (t.resp.status = 1 ∧ s.BadLength i ∧ ¬ s.BadCharacter i) ∨
    (t.resp.status = 2 ∧ ¬ s.BadLength i ∧ s.BadCharacter i) := by
  cases i with
  | encBlk =>
    obtain rfl := Host.Outcome.next.inj h
    exact .inl ⟨rfl, by simp [State.BadLength], by simp [State.BadCharacter]⟩
  | decBlk =>
    by_cases hsym : ∀ k, IsSymbol (symbol s.latch.din k)
    · obtain rfl := Host.Outcome.next.inj ((exec_decBlk_of_symbols hsym).symm.trans h)
      exact .inl ⟨rfl, by simp [State.BadLength], by simpa [State.BadCharacter] using hsym⟩
    · have hbad := not_forall.1 hsym
      obtain ⟨m, hm, -⟩ := exec_decBlk_of_not_symbol hbad
      obtain rfl := Host.Outcome.next.inj (hm.symm.trans h)
      exact .inr (.inr ⟨rfl, by simp [State.BadLength], .inl ⟨rfl, hbad⟩⟩)
  | encStr =>
    obtain ⟨h5, rfl⟩ | ⟨h5, -, -, rfl⟩ := execEncStr_next h
    · exact .inr (.inl ⟨rfl, .inl ⟨rfl, h5⟩, by simp [State.BadCharacter]⟩)
    · exact .inl ⟨rfl, by simp [State.BadLength, h5], by simp [State.BadCharacter]⟩
  | decStr =>
    obtain ⟨h8, rfl⟩ | ⟨p, h8, -, hp, rfl⟩ | ⟨h8, -, hnone, -, rfl⟩ := execDecStr_next h
    · exact .inr (.inl ⟨rfl, .inr ⟨rfl, h8⟩, by simp [State.BadCharacter, h8]⟩)
    · obtain ⟨hlt, hbad, -⟩ := firstBad_rmap_eq_some_iff.1 hp
      exact .inr (.inr ⟨rfl, by simp [State.BadLength, h8], .inr ⟨rfl, h8, p, hlt, hbad⟩⟩)
    · have hsym := firstBad_rmap_eq_none_iff.1 hnone
      exact .inl ⟨rfl, by simp [State.BadLength, h8], by simpa [State.BadCharacter, h8] using hsym⟩

/-- A command completes with STATUS 1 exactly on InvalidLength's cause. -/
theorem exec_status_eq_one_iff (h : exec i s = .next t) : t.resp.status = 1 ↔ s.BadLength i := by
  obtain ⟨hs, hlen, -⟩ | ⟨hs, hlen, -⟩ | ⟨hs, hlen, -⟩ := exec_status h <;> simp [hs, hlen]

/-- A command completes with STATUS 2 exactly on InvalidCharacter's cause. -/
theorem exec_status_eq_two_iff (h : exec i s = .next t) : t.resp.status = 2 ↔ s.BadCharacter i := by
  obtain ⟨hs, -, hchar⟩ | ⟨hs, -, hchar⟩ | ⟨hs, -, hchar⟩ := exec_status h <;> simp [hs, hchar]

/-- Settles O15: both stream commands check the length first, and STATUS tells that error apart. -/
theorem invalidLengthReported : Obligations.InvalidLengthReported :=
  ⟨fun _ h5 => raise_answers (i := .encStr) (execEncStr_badLength h5) (Nat.two_pow_pos _),
    fun _ h8 => raise_answers (i := .decStr) (execDecStr_badLength h8) (Nat.two_pow_pos _),
    fun _ _ _ h hs => (exec_status_eq_one_iff h).1 hs⟩

/-- DEC_BLK with STATUS 2 has met a lane that is no symbol. -/
theorem decBlk_bad_lane_of_status (h : exec .decBlk s = .next t) (h2 : t.resp.status = 2) :
    ∃ k, ¬ IsSymbol (symbol s.latch.din k) := by
  obtain ⟨-, hbad⟩ | ⟨hi, -⟩ := (exec_status_eq_two_iff h).1 h2
  · exact hbad
  · cases hi

/-- DEC_STR with STATUS 2 has raised InvalidCharacter at the lowest index that is no symbol. -/
theorem decStr_raise_of_status (h : exec .decStr s = .next t) (h2 : t.resp.status = 2) :
    ∃ p, t = s.raise .decStr (.invalidCharacter 0 p) ∧ p < s.latch.inLen ∧ ¬ IsSymbol (s.inByte p) ∧
      ∀ j < p, IsSymbol (s.inByte j) := by
  obtain ⟨-, rfl⟩ | ⟨p, -, -, hp, rfl⟩ | ⟨-, -, -, -, rfl⟩ := execDecStr_next h
  · exact absurd h2 (by decide : (1 : BitVec 2) ≠ 2)
  · exact ⟨p, rfl, firstBad_rmap_eq_some_iff.1 hp⟩
  · exact absurd h2 (by decide : (0 : BitVec 2) ≠ 2)

/-- Settles O16: STATUS 2 has its cause, and each decoder records the lowest place where it met one. -/
theorem invalidCharacterReported : Obligations.InvalidCharacterReported := by
  refine ⟨fun i s t h => exec_status_eq_two_iff h, fun s t hw h h2 => ?_, fun s t hfits h h2 => ?_⟩
  · obtain ⟨u, hu, -, hmask, hpos, -, -⟩ := (decBlkDecodesOrReports s hw).2 (decBlk_bad_lane_of_status h h2)
    obtain rfl := Host.Outcome.next.inj (hu.symm.trans h)
    exact ⟨hmask, hpos⟩
  · obtain ⟨p, rfl, hlt, hbad, hlow⟩ := decStr_raise_of_status h h2
    have hpos : (s.raise .decStr (.invalidCharacter 0 p)).resp.errPos = p := toLen_of_fits (hlt.trans hfits)
    rw [hpos]
    exact ⟨rfl, hlt, hbad, hlow⟩

end Sys2Proof.Machine
end

section
/-! PROOFS. The events of R96 at the step, the idle block (60_exceptions.md R109) and progress under the host's duties
(R110, R115, R118). -/

namespace Sys2Proof.Machine

/-- Settles O47: with nothing in flight the core's move is none. -/
theorem idleBlockKeepsState : Obligations.IdleBlockKeepsState := fun s h3 hb =>
  ⟨fun hp => (step_nil h3 hp).trans (coreMove_idle hb),
    fun rest hp => (step_cons h3 hp).trans (coreMove_idle (s := { s with pending := rest }) hb)⟩

/-- Acceptance latches the command registers, whatever state they are known from. -/
theorem accept_of_cmd {t : State} {c : Command} (hc : t.cmd = c) :
    t.accept = { t with latch := c, busy := true, respValid := false } := by
  subst hc
  rfl

/-- Settles O46: the completing command leaves BUSY 0 and the command registers as they were, so the START in that
instant is accepted with them. -/
theorem simultaneousEventsOrdered : Obligations.SimultaneousEventsOrdered := by
  refine ⟨fun s rest h3 hb hp => ?_, fun s rest h3 _ hp => ?_, fun s rest t h3 hb hp ht hd => ?_⟩
  · exact (step_host h3 hp (.inl nofun)).trans (pulseStart_busy hb)
  · exact ⟨_, step_cons h3 hp, resetNow_busy _, resetNow_respValid _, resetNow_resp _⟩
  · obtain ⟨hidle, -⟩ := exec_done ht
    have hcmd : t.cmd = s.cmd := (exec_untouched ht).cmd
    have hcfg : t.cfg = s.cfg := (exec_untouched ht).cfg
    rw [step_coreStart_busy h3 hb hp ht, pulseStart_accepted hidle (by rwa [hcmd, hcfg]), accept_of_cmd hcmd]

section progress

variable {s : State}

/-- In a state of the invariant the core's move never stops. -/
theorem State.Inv.coreMove_answers (h : s.Inv) : ∃ t, coreMove s = .next t := by
  cases hb : s.busy with
  | false => exact ⟨s, coreMove_idle hb⟩
  | true =>
    obtain ⟨t, ht⟩ := exec_completes (i := decode s.latch.op) h.cfgOk (h.lenDuty hb)
    exact ⟨t, (coreMove_busy hb).trans ht⟩

/-- The core's move writes no parameter and no command register. -/
theorem coreMove_cfg_cmd {t : State} (h : coreMove s = .next t) : t.cfg = s.cfg ∧ t.cmd = s.cmd := by
  obtain ⟨-, h⟩ | ⟨-, rfl⟩ := coreMove_next h
  · exact ⟨(exec_untouched h).cfg, (exec_untouched h).cmd⟩
  · exact ⟨rfl, rfl⟩

/-- A START that keeps the length duty never stops (70_reset_and_hazards.md R118). -/
theorem pulseStart_answers (hd : s.busy = false → s.cmd.inLen ≤ s.cfg.maxInLen) : ∃ t, s.pulseStart = .next t := by
  cases hb : s.busy with
  | false => exact ⟨_, pulseStart_accepted hb (hd hb)⟩
  | true => exact ⟨_, pulseStart_busy hb⟩

/-- A read of bytes of OUT that exist never stops. -/
theorem readOut_answers {i n : Nat} (hr : s.cfg.OutRange i n) : ∃ t, s.readOut i n = .next t := by
  cases hb : s.busy with
  | false => exact ⟨_, readOut_idle hb hr⟩
  | true => exact ⟨_, readOut_busy hb hr⟩

/-- A host move that keeps the host's duties never stops. -/
theorem hostMove_answers {a : Action} (hd : s.dutiful a) : ∃ t, hostMove a s = .next t := by
  cases a with
  | writeIn i bs =>
    obtain ⟨hfree, hr⟩ := hd
    exact ⟨_, hostMove_writeIn hfree hr⟩
  | wrOp | wrDin | wait | rd => exact ⟨_, rfl⟩
  | wrInLen v => exact ⟨_, if_pos hd⟩
  | start => exact pulseStart_answers hd
  | rdOut i n =>
    cases n with
    | lit n => exact readOut_answers hd
    | outLen =>
      cases hb : s.busy with
      | false =>
        rw [hostMove_rdOut_outLen_idle hb]
        exact readOut_answers (hd hb)
      | true => exact ⟨_, hostMove_rdOut_outLen_busy hb i⟩

/-- A `wait` never stops in a state of the invariant: the core moves, or the `wait` is over. -/
theorem State.Inv.takeEvent_wait_answers (h : s.Inv) : ∃ t, takeEvent (.host .wait) s = .next t := by
  cases hb : s.busy with
  | false => exact ⟨s, takeEvent_host (.inr hb)⟩
  | true =>
    obtain ⟨t, ht⟩ := exec_completes (i := decode s.latch.op) (s := { s with pending := .host .wait :: s.pending })
      h.cfgOk (h.lenDuty hb)
    exact ⟨t, (if_pos hb).trans ht⟩

/-- The host's event never stops: a `wait` by the invariant, any other move by the host's duties. -/
theorem State.Inv.takeEvent_host_answers {a : Action} (h : s.Inv) (hd : s.dutiful a) :
    ∃ t, takeEvent (.host a) s = .next t := by
  by_cases ha : a = .wait
  · subst ha
    exact h.takeEvent_wait_answers
  · rw [takeEvent_host (.inl ha)]
    exact hostMove_answers hd

/-- Completion in the instant of a START never stops when IN_LEN is within the duty. -/
theorem State.Inv.takeEvent_coreStart_answers (h : s.Inv) (hd : s.cmd.inLen ≤ s.cfg.maxInLen) :
    ∃ t, takeEvent .coreStart s = .next t := by
  obtain ⟨u, hu⟩ := h.coreMove_answers
  obtain ⟨hcfg, hcmd⟩ := coreMove_cfg_cmd hu
  rw [takeEvent, hu]
  exact pulseStart_answers fun _ => by rwa [hcfg, hcmd]

end progress

/-- Settles O56, by the event that is next. -/
theorem dutifulStepNeverStops : Obligations.DutifulStepNeverStops := by
  intro s h hd
  cases hp : s.pending with
  | nil =>
    rw [step_nil h.noReserved hp]
    exact h.coreMove_answers
  | cons e rest =>
    have hrest : State.Inv { s with pending := rest } := h.withPendingGotDraws rest _ _
    rw [State.nextDutiful, hp] at hd
    rw [step_cons h.noReserved hp]
    cases e with
    | host a => exact hrest.takeEvent_host_answers hd
    | core => exact hrest.coreMove_answers
    | coreStart => exact hrest.takeEvent_coreStart_answers hd
    | reset => exact ⟨_, rfl⟩

end Sys2Proof.Machine
end

section
/-! PROOFS. The host's moves while BUSY = 1 and a START beyond the length duty (70_reset_and_hazards.md R115, R118). -/

namespace Sys2Proof.Machine

variable {s t : State}

/-- Everything a host move can do while BUSY = 1: it writes a command register or is a read; IN, the handshake and the
schedule stay (60_exceptions.md R110). -/
theorem hostMove_busy_next {a : Action} (hb : s.busy = true) (h : hostMove a s = .next t) :
    ∃ c g d, t = { s with cmd := c, got := g, draws := d } := by
  by_cases ha : a = .start
  · subst ha
    exact ⟨_, _, _, Host.Outcome.next.inj (h.symm.trans (pulseStart_busy hb))⟩
  · obtain ⟨i, bs, hfree, -, rfl⟩ | ⟨c, -, rfl⟩ | ⟨g, d, rfl⟩ := hostMove_next ha h
    · obtain rfl : bs = [] := hfree.resolve_left (by simp [hb])
      exact ⟨_, _, _, rfl⟩
    · exact ⟨c, _, _, rfl⟩
    · exact ⟨_, g, d, rfl⟩

/-- A host write of one or more bytes to IN while BUSY = 1 is refused (R115). -/
theorem hostMove_writeIn_busy {i : Nat} {bs : List Byte} (hb : s.busy = true) (hbs : bs ≠ []) :
    hostMove (.writeIn i bs) s = .refused .inWriteWhileBusy := if_pos ⟨hb, hbs⟩

/-- Settles O36: no move while BUSY = 1 reaches IN. -/
theorem inNotWrittenWhileBusy : Obligations.InNotWrittenWhileBusy := by
  refine ⟨fun s rest i bs h3 hp hb hbs => ?_, fun a s t hb h x => ?_⟩
  · exact (step_host h3 hp (.inl nofun)).trans (hostMove_writeIn_busy hb hbs)
  · obtain ⟨c, g, d, rfl⟩ := hostMove_busy_next hb h
    rfl

/-- Settles O35: the completing command leaves BUSY 0, IN_LEN and MAX_IN_LEN as the START meets them. -/
theorem startTooLongRefused : Obligations.StartTooLongRefused := by
  refine ⟨fun s rest h3 hp hb hlen => ?_, fun s rest h3 hp hb hlen => ?_, fun s rest t h3 hp hb ht hlen => ?_⟩
  · exact (step_host h3 hp (.inl nofun)).trans (pulseStart_tooLong hb hlen)
  · exact (step_coreStart_idle h3 hb hp).trans (pulseStart_tooLong hb hlen)
  · obtain ⟨hidle, -⟩ := exec_done ht
    have hcmd : t.cmd = s.cmd := (exec_untouched ht).cmd
    have hcfg : t.cfg = s.cfg := (exec_untouched ht).cfg
    exact (step_coreStart_busy h3 hb hp ht).trans (pulseStart_tooLong hidle (by rwa [hcmd, hcfg]))

end Sys2Proof.Machine
end

section
/-! PROOFS. A command in flight completes with only quiet events ahead (70_reset_and_hazards.md R122; log 3). -/

namespace Sys2Proof.Machine

/-- A quiet event is one at which the core completes a command in flight, or a host move that keeps the host's duties
while BUSY = 1. -/
theorem Event.cases_of_quiet {e : Event} (h : e.quiet = true) :
    e = .core ∨ e = .host .wait ∨
      ∃ a, e = .host a ∧ a ≠ .wait ∧ ∀ s : State, s.busy = true → s.dutiful a := by
  cases e with
  | core => exact .inl rfl
  | coreStart | reset => cases h
  | host a =>
    refine .inr ?_
    cases a with
    | wait => exact .inl rfl
    | wrOp | wrDin | rd => exact .inr ⟨_, rfl, nofun, fun _ _ => trivial⟩
    | start => exact .inr ⟨_, rfl, nofun, fun s hb hidle => absurd (hb.symm.trans hidle) nofun⟩
    | writeIn | wrInLen | rdOut => cases h

section inFlight

variable {s : State} (h : s.Inv) (hb : s.busy = true)

include h hb

/-- In a state of the invariant the command in flight completes when it runs, whatever is pending. -/
theorem State.Inv.exec_latched_done (p : List Event) :
    ∃ t, exec (decode s.latch.op) { s with pending := p } = .next t ∧ t.Done := by
  obtain ⟨t, ht⟩ := exec_completes (i := decode s.latch.op) (s := { s with pending := p }) h.cfgOk (h.lenDuty hb)
  exact ⟨t, ht, exec_done ht⟩

/-- With nothing pending the next step completes the command in flight. -/
theorem State.Inv.step_nil_done (hp : s.pending = []) : ∃ t, step s = .next t ∧ t.Done := by
  obtain ⟨t, ht, hdone⟩ := h.exec_latched_done hb s.pending
  exact ⟨t, ((step_nil h.noReserved hp).trans (coreMove_busy hb)).trans ht, hdone⟩

/-- At a quiet event the command in flight completes, or the event is used up and the command is still in flight. -/
theorem State.Inv.step_quiet {e : Event} {rest : List Event} (hp : s.pending = e :: rest) (hq : e.quiet = true) :
    ∃ t, step s = .next t ∧ (t.Done ∨ t.busy = true ∧ t.pending = rest) := by
  have h3 : s.resp.status ≠ 3 := h.noReserved
  obtain rfl | rfl | ⟨a, rfl, ha, hd⟩ := Event.cases_of_quiet hq
  · obtain ⟨t, ht, hdone⟩ := h.exec_latched_done hb rest
    exact ⟨t, (step_core_busy h3 hb hp).trans ht, .inl hdone⟩
  · obtain ⟨t, ht, hdone⟩ := h.exec_latched_done hb s.pending
    exact ⟨t, (step_wait_busy h3 hb hp).trans ht, .inl hdone⟩
  · obtain ⟨t, ht⟩ := hostMove_answers (hd { s with pending := rest } hb)
    obtain ⟨c, g, d, rfl⟩ := hostMove_busy_next (s := { s with pending := rest }) hb ht
    exact ⟨_, (step_host h3 hp (.inl ha)).trans ht, .inr ⟨hb, rfl⟩⟩

/-- By induction on the events ahead: each one completes the command or leaves it in flight with one event fewer, and
with none left the core completes it. -/
theorem State.Inv.run_quiet_done {events : List Event} (hp : s.pending = events) (hq : ∀ e ∈ events, e.quiet = true) :
    ∃ k t, k ≤ events.length + 1 ∧ Host.Core.run Sys2Proof.core k s = .next t ∧ t.Done := by
  induction events generalizing s with
  | nil =>
    obtain ⟨t, hstep, hdone⟩ := h.step_nil_done hb hp
    exact ⟨1, t, Nat.le_refl 1, run_succ_of_step hstep 0, hdone⟩
  | cons e rest ih =>
    obtain ⟨hqe, hqrest⟩ := List.forall_mem_cons.1 hq
    obtain ⟨t, hstep, hdone | ⟨hbt, hpt⟩⟩ := h.step_quiet hb hp hqe
    · exact ⟨1, t, Nat.le_add_left 1 _, run_succ_of_step hstep 0, hdone⟩
    · obtain ⟨k, u, hk, hrun, hdone⟩ := ih (stepKeepsInvariant s t h hstep) hbt hpt hqrest
      exact ⟨k + 1, u, Nat.succ_le_succ hk, (run_succ_of_step hstep k).trans hrun, hdone⟩

end inFlight

/-- Settles O48. -/
theorem acceptedCommandCompletes : Obligations.AcceptedCommandCompletes :=
  fun _ h hb hq => h.run_quiet_done hb rfl hq

end Sys2Proof.Machine
end

section
/-! PROOFS. What a reset and a power-on leave: the registers, IN and OUT, an idle block and the invariant
(70_reset_and_hazards.md R111 to R113). -/

namespace Sys2Proof.Machine

/-! ### Registers -/

/-- Settles O50: the registers are those of `Command.zero` and `Response.zero`. -/
theorem resetClearsRegisters : Obligations.ResetClearsRegisters := by
  intro s rest h3 hp
  refine ⟨State.resetNow { s with pending := rest }, step_cons h3 hp, ?_⟩
  rw [resetNow_cmd, resetNow_resp]
  exact ⟨rfl, rfl, rfl, resetNow_busy _, resetNow_respValid _, rfl, rfl, rfl, rfl, rfl⟩

/-! ### Buffers -/

section buffers

variable {s : State}

/-- While BUSY = 0 no stream command is in flight. -/
theorem streamInFlight_of_idle (hb : s.busy = false) : s.streamInFlight = false := by
  rw [State.streamInFlight, hb, Bool.false_and]

/-- While BUSY = 1 with a stream command latched, one is in flight. -/
theorem streamInFlight_of_stream (hb : s.busy = true) (h : decode s.latch.op = .encStr ∨ decode s.latch.op = .decStr) :
    s.streamInFlight = true := by
  rw [State.streamInFlight, hb, gran_iff.2 h, Bool.and_self]

/-- A reset with a stream command in flight makes every byte of OUT a new draw (R112). -/
theorem resetNow_outByte_of_stream (hs : s.streamInFlight = true) (a : Nat) :
    s.resetNow.outByte a = Config.freeOut (s.outEpoch + 1) a := by
  unfold State.outByte
  rw [resetNow_outBuf, resetNow_outEpoch, hs]
  rfl

/-- At power-on every byte of IN is a draw (R112). -/
theorem powerOn_inByte (c : Config) (a : Nat) : (State.powerOn c).inByte a = Config.freeIn a := rfl

/-- At power-on every byte of OUT is a draw (R112). -/
theorem powerOn_outByte (c : Config) (a : Nat) : (State.powerOn c).outByte a = Config.freeOut 0 a := rfl

end buffers

/-- Settles O51: OUT is forgotten exactly with a stream command in flight, and IN never. -/
theorem buffersAcrossReset : Obligations.BuffersAcrossReset :=
  ⟨fun c a => ⟨powerOn_inByte c a, powerOn_outByte c a⟩,
    fun s hb => ⟨resetNow_inByte s, resetNow_sameOut (streamInFlight_of_idle hb)⟩,
    fun s hb h => ⟨resetNow_inByte s, resetNow_outByte_of_stream (streamInFlight_of_stream hb h)⟩⟩

/-! ### The idle block -/

/-- With BUSY 0 and the command registers at their reset values a START is accepted: IN_LEN = 0 is within any length duty
(R113, R118). -/
theorem start_accepted_of_zero {s : State} (hb : s.busy = false) (hc : s.cmd = Command.zero) :
    ∃ t, hostMove .start s = .next t ∧ t.busy = true :=
  ⟨s.accept, pulseStart_accepted hb (by rw [hc]; exact Nat.zero_le _), accept_busy s⟩

/-- Settles O53. -/
theorem idleAfterReset : Obligations.IdleAfterReset :=
  ⟨fun s => ⟨resetNow_busy s, resetNow_respValid s, start_accepted_of_zero (resetNow_busy s) (resetNow_cmd s)⟩,
    fun _ => ⟨rfl, rfl, start_accepted_of_zero rfl rfl⟩⟩

/-! ### The invariant -/

/-- Power-on of lawful sizes meets the invariant: the buffers are empty and every length is 0. -/
theorem State.Inv.powerOn {c : Config} (hc : c.Ok) : (State.powerOn c).Inv where
  cfgOk := hc
  inWf := List.Pairwise.nil
  outWf := List.Pairwise.nil
  inBelow := fun _ hmem => nomatch hmem
  outBelow := fun _ hmem => nomatch hmem
  inLenFits := Nat.two_pow_pos _
  latchFits := Nat.two_pow_pos _
  errPosFits := Nat.two_pow_pos _
  outLenFits := Nat.zero_le _
  lenDuty := nofun
  handshake := nofun
  afterReset := fun _ _ => rfl
  noReserved := show (0 : BitVec 2) ≠ 3 by decide
  errorNoOutput := fun _ => ⟨rfl, rfl⟩
  onlyBadCharPos := fun _ => ⟨rfl, rfl⟩

/-- The sizes of log 1 meet R7. -/
theorem chosenConfig_ok : chosenConfig.Ok := by decide

/-- Settles O54. -/
theorem resetMeetsInvariant : Obligations.ResetMeetsInvariant :=
  ⟨fun _ => State.Inv.powerOn, State.Inv.powerOn chosenConfig_ok⟩

end Sys2Proof.Machine
end

section
/-! PROOFS. A word with a bit above OP[1:0] is no command word, the model's choice (log 20); with it the agreement of
DECODE and ENCODE is complete (30_encoding.md R56, R57, R58, R67). -/

namespace Sys2Proof

/-- A word is rejected exactly when it has a bit above OP[1:0]. -/
theorem decodeWord_eq_error_iff {w : Nat} : decodeWord w = .error .bitAboveOp ↔ 4 ≤ w := by
  unfold decodeWord
  split
  case isTrue hlt => simp [hlt]
  case isFalse hge => simp [Nat.le_of_not_lt hge]

/-- A table word with a bit above OP[1:0], within the table's width, is no command's. -/
theorem decodeTableWord_eq_none {nbits w : Nat} (h : 4 ≤ w % 2 ^ nbits) : decodeTableWord nbits w = none := by
  unfold decodeTableWord
  rw [decodeWord_eq_error_iff.mpr h]

/-- Settles O2: the two round trips, on OP values and on table words, and the rejection of every other word. -/
theorem encodeDecodeAgree : Obligations.EncodeDecodeAgree :=
  ⟨decode_encode, encode_decode, fun _ i hn => decodeTableWord_encode hn i, fun _ _ hw => decodeTableWord_eq_none hw⟩

end Sys2Proof
end
